-- ==== Sys2Proof/Config.lean ====
section
/-! DEFINITION. The parameters the spec leaves OPEN (00_scope.md rule R6). They are data, an argument of the whole model: every
definition and every statement is over any `Params`. Values the spec leaves free: none (93_implementation_defined.md part 1). -/

namespace Sys2Proof

/-- The open parameters of 00_scope.md rule R6 that are fixed before the machine is constructed (47_host_operations.md rule R160).
STRMEM, which the host may supply anew between runs (20_memory.md rule R53), is a field of the machine's state. -/
structure Params where
  /-- width in bits of a Word, of a register, of the operand fields and of the program counter -/
  W : Nat
  /-- number of registers -/
  NREG : Nat
  /-- capacity of the program store in instruction slots -/
  PROG_CAP : Nat
  /-- optional bound on the number of instructions of one run; `none` reproduces the source -/
  STEP_BUDGET : Option Nat
deriving DecidableEq, Repr

/-- The constraints of 00_scope.md rule R6 on the parameters. -/
abbrev Params.Valid (p : Params) : Prop :=
  8 ≤ p.W ∧ 1 ≤ p.NREG ∧ p.NREG ≤ 2 ^ p.W ∧ 1 ≤ p.PROG_CAP ∧ p.PROG_CAP ≤ 2 ^ (p.W - 1)

/-- DESIGN CHOICE (log 1): the parameter values of `State.reset`. `W = 32` is the reference value of 00_scope.md rule R6, `NREG = 8` and
no budget are the conventions of 95_test_vectors.md, the capacity is the largest that rule R6 allows at that width. -/
def Params.reference : Params := { W := 32, NREG := 8, PROG_CAP := 2 ^ 31, STEP_BUDGET := none }

end Sys2Proof
end

