-- ==== Sys2Proof/Syntax.lean ====
section
/-! DEFINITION. The instructions of TBI-CORE: the closed list of 19 opcodes of 30_encoding.md rule R75, each a triple
`{opcode, lhs, rhs}` (rule R70), one constructor per row of spec/opcode_table.json. -/

namespace Sys2Proof

/-- An instruction. The two operand fields are `W`-bit numbers, and `W` is a parameter of the machine (00_scope.md rule R6), so they stand
here as natural numbers; `Instr.WellFormed W` says that they are fields of `W` bits. A field that its opcode does not use is
kept (30_encoding.md rules R73, R79). -/
inductive Instr where
  /-- `add`: `x[lhs] <- x[lhs] + x[rhs]` (R121) -/
  | add (lhs rhs : Nat)
  /-- `addc`: `x[lhs] <- x[lhs] + rhs` (R122) -/
  | addc (lhs rhs : Nat)
  /-- `div`: `x[lhs] <- x[lhs] / x[rhs]`, unsigned (R123) -/
  | div (lhs rhs : Nat)
  /-- `divc`: `x[lhs] <- x[lhs] / rhs`, unsigned (R124) -/
  | divc (lhs rhs : Nat)
  /-- `mod`: `x[lhs] <- x[lhs] mod x[rhs]`, unsigned (R125) -/
  | mod (lhs rhs : Nat)
  /-- `modc`: `x[lhs] <- x[lhs] mod rhs`, unsigned (R126) -/
  | modc (lhs rhs : Nat)
  /-- `mul`: `x[lhs] <- x[lhs] * x[rhs]` (R127) -/
  | mul (lhs rhs : Nat)
  /-- `mulc`: `x[lhs] <- x[lhs] * rhs` (R128) -/
  | mulc (lhs rhs : Nat)
  /-- `set`: `x[lhs] <- x[rhs]` (R130) -/
  | set (lhs rhs : Nat)
  /-- `setc`: `x[lhs] <- rhs` (R131) -/
  | setc (lhs rhs : Nat)
  /-- `eq`: skip the next instruction unless `x[lhs] = x[rhs]` (R135) -/
  | eq (lhs rhs : Nat)
  /-- `eqc`: skip the next instruction unless `x[lhs] = rhs` (R136) -/
  | eqc (lhs rhs : Nat)
  /-- `nop`: no operation; both fields unused (R137) -/
  | nop (lhs rhs : Nat)
  /-- `print`: print the string at address `x[rhs]`; `lhs` unused (R141) -/
  | print (lhs rhs : Nat)
  /-- `printc`: print the string at address `rhs`; `lhs` unused (R142) -/
  | printc (lhs rhs : Nat)
  /-- `jmp`: relative jump by the signed displacement `x[rhs]`; `lhs` unused (R151) -/
  | jmp (lhs rhs : Nat)
  /-- `jmpc`: relative jump by the signed displacement `rhs`; `lhs` unused (R152) -/
  | jmpc (lhs rhs : Nat)
  /-- `ret`: halt with result `x[rhs]`; `lhs` unused (R156) -/
  | ret (lhs rhs : Nat)
  /-- `retc`: halt with result `rhs`; `lhs` unused (R157) -/
  | retc (lhs rhs : Nat)
deriving DecidableEq, Repr

/-- The first operand field (30_encoding.md rule R70). -/
def Instr.lhs : Instr → Nat
  | .add lhs _ => lhs
  | .addc lhs _ => lhs
  | .div lhs _ => lhs
  | .divc lhs _ => lhs
  | .mod lhs _ => lhs
  | .modc lhs _ => lhs
  | .mul lhs _ => lhs
  | .mulc lhs _ => lhs
  | .set lhs _ => lhs
  | .setc lhs _ => lhs
  | .eq lhs _ => lhs
  | .eqc lhs _ => lhs
  | .nop lhs _ => lhs
  | .print lhs _ => lhs
  | .printc lhs _ => lhs
  | .jmp lhs _ => lhs
  | .jmpc lhs _ => lhs
  | .ret lhs _ => lhs
  | .retc lhs _ => lhs

/-- The second operand field (30_encoding.md rule R70). -/
def Instr.rhs : Instr → Nat
  | .add _ rhs => rhs
  | .addc _ rhs => rhs
  | .div _ rhs => rhs
  | .divc _ rhs => rhs
  | .mod _ rhs => rhs
  | .modc _ rhs => rhs
  | .mul _ rhs => rhs
  | .mulc _ rhs => rhs
  | .set _ rhs => rhs
  | .setc _ rhs => rhs
  | .eq _ rhs => rhs
  | .eqc _ rhs => rhs
  | .nop _ rhs => rhs
  | .print _ rhs => rhs
  | .printc _ rhs => rhs
  | .jmp _ rhs => rhs
  | .jmpc _ rhs => rhs
  | .ret _ rhs => rhs
  | .retc _ rhs => rhs

/-- Why a word is no instruction: its opcode field is 19 to 255 (30_encoding.md rule R78). The only reason there is: every field
combination of a valid opcode is an instruction (rule R77). -/
inductive DecodeError where
  | invalidOpcode (opcode : Nat)
deriving DecidableEq, Repr

/-- What the decoder answers: the instruction, or the word's rejection by name. -/
inductive Decoded where
  | instr (i : Instr)
  | rejected (e : DecodeError)
deriving DecidableEq, Repr

/-- The instruction of a decoder's answer, where it has one. -/
def Decoded.instr? : Decoded → Option Instr
  | .instr i => some i
  | .rejected _ => none

end Sys2Proof
end

