-- ==== Sys2Proof/WellFormed.lean ====
section
/-! DEFINITION. When a term of `Instr` is an instruction of a machine of width `W`: both operand fields fit in `W` bits
(30_encoding.md rule R72). There is nothing else to check: every combination of fields is defined (rule R77). -/

namespace Sys2Proof

/-- Both operand fields are `W`-bit fields (30_encoding.md rules R70, R72, R77). -/
abbrev Instr.WellFormed (W : Nat) (i : Instr) : Prop := i.lhs < 2 ^ W ∧ i.rhs < 2 ^ W

end Sys2Proof
end

