-- ==== Sys2Proof/Word.lean ====
section
/-! DEFINITION. The word types of TBI-CORE. Every width follows the parameter `W` (00_scope.md rules R6, R7): a Word is a string of `W`
bits, an instruction word is `8 + 2W` bits (30_encoding.md rule R72). -/

namespace Sys2Proof

/-- A byte of the string memory or of the output stream (20_memory.md rule R50). -/
abbrev Byte := BitVec 8

/-- A Word: `W` bits, unsigned, arithmetic modulo `2^W` (00_scope.md rule R7; 90_conflicts.md C9). -/
abbrev Word (W : Nat) := BitVec W

/-- An instruction word `opcode ++ lhs ++ rhs` (30_encoding.md rule R72); its `8 + 2W` bits are written `8 + W + W` so that the three
fields concatenate to it as they stand. -/
abbrev InstrWord (W : Nat) := BitVec (8 + W + W)

/-- `MAXW`, the all-ones Word (00_scope.md rule R7). -/
def maxWord (W : Nat) : Word W := BitVec.allOnes W

end Sys2Proof
end

