-- ==== Sys2Proof/Decode.lean ====
section
/-! DEFINITION. Decoder and encoder of the instruction word (30_encoding.md rules R72 to R78): a pure split of the word into
`opcode`, `lhs`, `rhs`, and its inverse concatenation. -/

namespace Sys2Proof

/-- The opcode field, bits `[2W+7 : 2W]` (30_encoding.md rules R72, R73). -/
def opcodeField {W : Nat} (w : InstrWord W) : BitVec 8 := w.extractLsb' (W + W) 8

/-- The `lhs` field, bits `[2W-1 : W]` (30_encoding.md rules R72, R73). -/
def lhsField {W : Nat} (w : InstrWord W) : Word W := w.extractLsb' W W

/-- The `rhs` field, bits `[W-1 : 0]` (30_encoding.md rules R72, R73). -/
def rhsField {W : Nat} (w : InstrWord W) : Word W := w.extractLsb' 0 W

/-- The instruction of an opcode number and two fields (30_encoding.md rule R75); numbers 19 and up denote none (rule R78). -/
def instrOfOpcode (opcode lhs rhs : Nat) : Option Instr :=
  match opcode with
  | 0 => some (.add lhs rhs)
  | 1 => some (.addc lhs rhs)
  | 2 => some (.div lhs rhs)
  | 3 => some (.divc lhs rhs)
  | 4 => some (.mod lhs rhs)
  | 5 => some (.modc lhs rhs)
  | 6 => some (.mul lhs rhs)
  | 7 => some (.mulc lhs rhs)
  | 8 => some (.set lhs rhs)
  | 9 => some (.setc lhs rhs)
  | 10 => some (.eq lhs rhs)
  | 11 => some (.eqc lhs rhs)
  | 12 => some (.nop lhs rhs)
  | 13 => some (.print lhs rhs)
  | 14 => some (.printc lhs rhs)
  | 15 => some (.jmp lhs rhs)
  | 16 => some (.jmpc lhs rhs)
  | 17 => some (.ret lhs rhs)
  | 18 => some (.retc lhs rhs)
  | _ => none

/-- The decoder (30_encoding.md rule R73): total, refusing an invalid opcode by name (rule R78). -/
def decode {W : Nat} (w : InstrWord W) : Decoded :=
  match instrOfOpcode (opcodeField w).toNat (lhsField w).toNat (rhsField w).toNat with
  | some i => .instr i
  | none => .rejected (.invalidOpcode (opcodeField w).toNat)

/-- The instruction that a word of the opcode table holds. The table's words are those of the reference width `W = 32`, 72 bits, one
indivisible word with no byte order (20_memory.md rule R54), numbered as 30_encoding.md rule R72 numbers them; bits from `nbits` up
are 0. -/
def decodeTableWord (nbits w : Nat) : Option Instr :=
  (decode (BitVec.ofNat (8 + 32 + 32) (w % 2 ^ nbits) : InstrWord 32)).instr?

/-- The opcode number of an instruction (30_encoding.md rule R75). -/
def opcodeNumber : Instr → Nat
  | .add _ _ => 0
  | .addc _ _ => 1
  | .div _ _ => 2
  | .divc _ _ => 3
  | .mod _ _ => 4
  | .modc _ _ => 5
  | .mul _ _ => 6
  | .mulc _ _ => 7
  | .set _ _ => 8
  | .setc _ _ => 9
  | .eq _ _ => 10
  | .eqc _ _ => 11
  | .nop _ _ => 12
  | .print _ _ => 13
  | .printc _ _ => 14
  | .jmp _ _ => 15
  | .jmpc _ _ => 16
  | .ret _ _ => 17
  | .retc _ _ => 18

/-- The encoder: `word = opcode ++ lhs ++ rhs` (30_encoding.md rules R72, R73). -/
def encode (W : Nat) (i : Instr) : InstrWord W :=
  BitVec.ofNat 8 (opcodeNumber i) ++ BitVec.ofNat W i.lhs ++ BitVec.ofNat W i.rhs

/-- How an opcode takes its second operand (30_encoding.md rules R74, R76). -/
abbrev isImmediateForm (opcode : Nat) : Bool := opcode ∈ [1, 3, 5, 7, 9, 11, 14, 16, 18]

/-- Whether an opcode reads its second operand from a register (30_encoding.md rule R76). -/
abbrev isRegisterForm (opcode : Nat) : Bool := opcode ∈ [0, 2, 4, 6, 8, 10, 13, 15, 17]

/-- Whether an opcode reads or writes `x[lhs]` (10_state.md rule R22; `uses_lhs` of 40_dispatch_and_sequencer.md rule R100). -/
abbrev usesLhs (opcode : Nat) : Bool := opcode ≤ 11

end Sys2Proof
end

