-- ==== Sys2Proof/Machine/State.lean ====
section
/-! DEFINITION. The state of TBI-CORE: every piece of state of 10_state.md, STRMEM (20_memory.md rule R53) and, as the model's own
fields, the host's side of the machine (47_host_operations.md). Plain data throughout. -/

namespace Sys2Proof.Machine

/-- STRMEM (20_memory.md rule R53), a partial map from addresses to bytes, as the list of the mapped addresses with their bytes. An
address that is not listed is unmapped and reads as `absent`. -/
abbrev Memory := List Host.Cell

/-- The canonical form of a memory: addresses strictly rising. (An unlisted address reads as no byte at all, so no listed byte equals what
an unlisted address reads as.) -/
abbrev Memory.wf (m : Memory) : Prop := m.Pairwise (fun a b => a.1 < b.1)

/-- Every mapped address is a `W`-bit address (20_memory.md rule R50). -/
abbrev Memory.within (W : Nat) (m : Memory) : Prop := ∀ cell ∈ m, cell.1 < 2 ^ W

/-- The `status` word (10_state.md rule R29). -/
inductive Status where
  /-- no run since construction -/
  | idle
  /-- a run is in progress -/
  | running
  /-- the last run has ended and `outcome` is valid -/
  | ended
deriving DecidableEq, Repr

/-- The closed error taxonomy (60_exceptions.md rule R182). -/
inductive ErrorName where
  | outOfBoundsRegister
  | outOfBoundsProgramCounter
  | divisionByZero
  | unexpectedHaltOpcode
deriving DecidableEq, Repr

/-- How a run ends (60_exceptions.md rule R180). -/
inductive RunOutcome (W : Nat) where
  /-- a `ret` or `retc` executed; `v` is the result -/
  | halted (v : Word W)
  /-- one of the four errors, with its `info` word -/
  | error (e : ErrorName) (info : Word W)
  /-- `STEP_BUDGET` instructions were executed without the run ending -/
  | budgetExhausted
  /-- a print could not read a NUL-terminated string at `a` -/
  | printFault (a : Word W)
deriving DecidableEq, Repr

/-- Why a Load is refused (47_host_operations.md rule R162). -/
inductive LoadRejection where
  | empty
  | tooLong
  /-- `k` is the least slot whose opcode field is 19 or more -/
  | invalidOpcode (k : Nat)
deriving DecidableEq, Repr

/-- A transaction the host presents (47_host_operations.md rule R160); Construct is the reset line `rst`. `supplyStrmem` is the host's
supplying of the string memory between runs (20_memory.md rule R53; log 8). -/
inductive HostCommand (W : Nat) where
  | load (p : List (InstrWord W))
  | regGet (i : Word W)
  | regSet (i v : Word W)
  | run
  | supplyStrmem (cells : List (Word W × Byte))
deriving DecidableEq, Repr

/-- The response to a transaction (47_host_operations.md rule R160). -/
inductive Response (W : Nat) where
  | ok
  /-- `Ok(v)` of a RegGet -/
  | value (v : Word W)
  | loadRejected (r : LoadRejection)
  /-- `Error(OutOfBoundsRegister, i)` of a RegGet or RegSet -/
  | error (e : ErrorName) (info : Word W)
  /-- the outcome of a Run, given when the run ends -/
  | ended (o : RunOutcome W)
deriving DecidableEq, Repr

/-- The state of a core with parameters `p`, the host's side included. -/
structure CoreState (p : Params) where
  /-- the register file `x[0] .. x[NREG-1]` (10_state.md rule R20) -/
  regs : Vector (Word p.W) p.NREG
  /-- the program counter, a slot index (10_state.md rule R24) -/
  pc : Word p.W
  /-- the program store, `L` instruction words (10_state.md rule R28) -/
  prog : List (InstrWord p.W)
  /-- `status` (10_state.md rule R29) -/
  status : Status
  /-- `outcome`; `none` is the spec's "not valid" (10_state.md rules R29, R36; log 4) -/
  outcome : Option (RunOutcome p.W)
  /-- `result`; `none` is the spec's "not valid" (10_state.md rules R29, R36; log 4) -/
  result : Option (Word p.W)
  /-- `fault_pc`; `none` is the spec's "not valid" (10_state.md rule R29; 60_exceptions.md rule R188; log 4) -/
  faultPc : Option (Word p.W)
  /-- the bytes written by the print opcodes so far (10_state.md rule R30) -/
  out : List Byte
  /-- instructions executed in the current run; does not wrap (10_state.md rule R31) -/
  steps : Nat
  /-- STRMEM, supplied by the host, read by print only (20_memory.md rule R53) -/
  strmem : Memory
  /-- the reset line: high asks for Construct (47_host_operations.md rule R166; log 6) -/
  rst : Bool
  /-- transactions presented by the host and not yet accepted (47_host_operations.md rule R161; log 5) -/
  inbox : List (HostCommand p.W)
  /-- the response to the last accepted transaction, once there is one (47_host_operations.md rule R160; log 7) -/
  response : Option (Response p.W)
deriving DecidableEq, Repr

/-- The state of a machine: its parameters, which no step changes, and its core's state. -/
structure State where
  /-- the open parameters (00_scope.md rule R6) -/
  params : Params
  /-- everything the machine holds -/
  core : CoreState params
deriving DecidableEq, Repr

/-- The word of the default program's one instruction `ret r0`, `{ret, lhs = 0, rhs = 0}` (10_state.md rule R36; 90_conflicts.md C7). -/
def defaultWord (W : Nat) : InstrWord W := encode W (.ret 0 0)

/-- The state after construction (10_state.md rule R36). `pc` is not live then; it holds 0 (DESIGN CHOICE, log 3). Nothing is mapped in
STRMEM and the host presents nothing (DESIGN CHOICE, logs 1, 5, 6, 7). -/
def CoreState.initial (p : Params) : CoreState p :=
  { regs := Vector.replicate p.NREG 0
    pc := 0
    prog := [defaultWord p.W]
    status := .idle
    outcome := none
    result := none
    faultPc := none
    out := []
    steps := 0
    strmem := []
    rst := false
    inbox := []
    response := none }

/-- A machine with parameters `p` right after construction (10_state.md rule R36). -/
def State.constructed (p : Params) : State := { params := p, core := CoreState.initial p }

/-- The machine right after reset, at the reference parameters (log 1). -/
def State.reset : State := State.constructed Params.reference

/-- Why the machine stops without a next state. No instruction's meaning stops; this arises only in states that no run reaches. -/
inductive Fault where
  /-- Raised by the fetch of a RUNNING machine whose `pc` is outside the program. 40_dispatch_and_sequencer.md rule R101 shows that no run
  reaches such a state. SAFE: the spec gives no behaviour there (log 10). -/
  | fetchOutsideProgram
deriving DecidableEq, Repr

/-- Why an instruction has no meaning. -/
inductive Refusal where
  /-- Raised by `exec` for an instruction without a meaning; no arm is so at present. SAFE: nothing is claimed of it. -/
  | notModelled (mnemonic : String)
  /-- Raised by the fetch of a word whose opcode field is 19 to 255. Load refuses such programs (30_encoding.md rule R78;
  47_host_operations.md rule R162), so no run reaches it. SAFE: the spec gives no behaviour there (log 10). -/
  | invalidOpcode (opcode : Nat)
deriving DecidableEq, Repr

end Sys2Proof.Machine
end

