-- ==== Sys2Proof/Machine/Memory.lean ====
section
/-! DEFINITION. The string memory STRMEM: reading a byte (20_memory.md rule R53), the host's supplying of bytes, and the string read of the
print opcodes (44_print.md rule R140). No instruction writes it (20_memory.md rule R55). -/

namespace Sys2Proof.Machine

/-- What an address that is not listed reads as: `absent` (20_memory.md rule R53). -/
def Memory.unlisted : Option Byte := none

/-- `MemRead(a, 1)`: the byte at a mapped address, `none` (the spec's `absent`) otherwise (20_memory.md rule R53). -/
def Memory.read : Memory → Nat → Option Byte
  | [], _ => Memory.unlisted
  | (k, b) :: rest, a => if k = a then some b else Memory.read rest a

/-- The host maps address `a` to byte `b`, keeping the canonical form (20_memory.md rule R53; log 8). -/
def Memory.write : Memory → Nat → Byte → Memory
  | [], a, b => [(a, b)]
  | (k, v) :: rest, a, b =>
    if a < k then (a, b) :: (k, v) :: rest
    else if a = k then (a, b) :: rest
    else (k, v) :: Memory.write rest a b

/-- The memory that maps exactly the given addresses; of two cells for one address the later one counts (log 8). -/
def Memory.ofCells {W : Nat} (cells : List (Word W × Byte)) : Memory :=
  cells.foldl (fun m cell => m.write cell.1.toNat cell.2) []

/-- The scan of 44_print.md rule R140: the bytes from `a` up to the first NUL, `none` if an unmapped address or the end of the `fuel`
addresses from `a` is met first. -/
def Memory.scan (m : Memory) : Nat → Nat → Option (List Byte)
  | 0, _ => none
  | fuel + 1, a =>
    match m.read a with
    | none => none
    | some b => if b = 0 then some [] else (m.scan fuel (a + 1)).map (b :: ·)

/-- `string_at(a)` (44_print.md rule R140): the scan from `a` over the addresses `a .. 2^W - 1`; it does not wrap. -/
def Memory.stringAt {W : Nat} (m : Memory) (a : Word W) : Option (List Byte) :=
  m.scan (2 ^ W - a.toNat) a.toNat

end Sys2Proof.Machine
end

