-- ==== Sys2Proof/Machine/Ops.lean ====
section
/-! DEFINITION. The named operations over a core's state: register access (10_state.md rule R21), the end of a run and the raising of an
error (40_dispatch_and_sequencer.md rule R100; 60_exceptions.md rules R181, R188), the start of a run (47_host_operations.md
rule R165), the program-counter sequencer (40_dispatch_and_sequencer.md rules R104 to R106). -/

namespace Sys2Proof.Machine

variable {p : Params}

/-- The bounds check of a register index (10_state.md rule R21). -/
def CoreState.inFile (_c : CoreState p) (i : Word p.W) : Bool := decide (i.toNat < p.NREG)

/-- `x[i]`, the read of register `i` (00_scope.md rule R9). Used only for an index that `inFile` admits; it answers 0 for another. -/
def CoreState.x (c : CoreState p) (i : Word p.W) : Word p.W := (c.regs[i.toNat]?).getD 0

/-- `x[i] <- v` (00_scope.md rule R9); an index outside the file changes no register (10_state.md rule R21). -/
def CoreState.setX (c : CoreState p) (i v : Word p.W) : CoreState p :=
  { c with regs := c.regs.setIfInBounds i.toNat v }

/-- `out <- out ++ bytes` (00_scope.md rule R9). -/
def CoreState.append (c : CoreState p) (bytes : List Byte) : CoreState p :=
  { c with out := c.out ++ bytes }

/-- The error code (60_exceptions.md rule R182). -/
def ErrorName.code : ErrorName → Nat
  | .outOfBoundsRegister => 1
  | .outOfBoundsProgramCounter => 2
  | .divisionByZero => 3
  | .unexpectedHaltOpcode => 4

/-- The number of an outcome for a status word: the error's code, 0 for no error (60_exceptions.md rule R182), 5 and 6 for the two outcomes
outside the taxonomy (rule R190). -/
def RunOutcome.number {W : Nat} : RunOutcome W → Nat
  | .halted _ => 0
  | .error e _ => e.code
  | .budgetExhausted => 5
  | .printFault _ => 6

/-- The `result` word that an outcome leaves (10_state.md rule R29): the value of `Halted`, all ones for `UnexpectedHaltOpcode`
(40_dispatch_and_sequencer.md rule R106), not valid otherwise. -/
def RunOutcome.resultWord {W : Nat} : RunOutcome W → Option (Word W)
  | .halted v => some v
  | .error .unexpectedHaltOpcode _ => some (maxWord W)
  | _ => none

/-- The `fault_pc` word that an outcome leaves when the run ends with program counter `pc` (60_exceptions.md rule R188); not valid for
`Halted`. -/
def RunOutcome.faultPcWord {W : Nat} (pc : Word W) : RunOutcome W → Option (Word W)
  | .halted _ => none
  | _ => some pc

/-- `end_run(o)` (40_dispatch_and_sequencer.md rule R100; 60_exceptions.md rules R187, R188): the run ends with outcome `o`, recorded in the
host-readable words, and the Run transaction gets its response (47_host_operations.md rule R165). -/
def CoreState.endRun (c : CoreState p) (o : RunOutcome p.W) : CoreState p :=
  { c with
    status := .ended
    outcome := some o
    result := o.resultWord
    faultPc := o.faultPcWord c.pc
    response := some (.ended o) }

/-- `raise E(info)`: taking an error, the machine's one kind of exception (60_exceptions.md rules R181, R187). There is no handler and no
return from it (rule R192): the host's way on is `startRun`. -/
def CoreState.raise (c : CoreState p) (e : ErrorName) (info : Word p.W) : CoreState p :=
  c.endRun (.error e info)

/-- The start of a run (47_host_operations.md rule R165): slot 0, no step counted, the outcome words not valid; registers and `out` as
they are. -/
def CoreState.startRun (c : CoreState p) : CoreState p :=
  { c with
    pc := 0
    steps := 0
    status := .running
    outcome := none
    result := none
    faultPc := none
    response := none }

/-- Construct, the hardware reset (47_host_operations.md rule R166): every piece of the core's state as 10_state.md rule R36 says. STRMEM and
the transactions still presented are the host's and stay; the line `rst` is taken (log 6). -/
def CoreState.construct (c : CoreState p) : CoreState p :=
  { CoreState.initial p with strmem := c.strmem, inbox := c.inbox }

/-- `pc <- t` (00_scope.md rule R9). -/
def CoreState.setPc (c : CoreState p) (t : Word p.W) : CoreState p := { c with pc := t }

/-- The program-counter advance and its bounds check (40_dispatch_and_sequencer.md rules R104, R105). -/
def CoreState.advance (c : CoreState p) (off : Word p.W) : CoreState p :=
  let t := c.pc + off
  if t.toNat < c.prog.length then c.setPc t
  else (c.setPc t).raise .outOfBoundsProgramCounter t

/-- What a handler answers (40_dispatch_and_sequencer.md rule R103): the state with its effect and the pc-offset, or the outcome that ends
the run with no effect (60_exceptions.md rule R188). -/
inductive HandlerResult (p : Params) where
  | effect (c : CoreState p) (off : Word p.W)
  | stop (o : RunOutcome p.W)

/-- What follows the handler (40_dispatch_and_sequencer.md rules R104 to R106): an offset of 0 halts, with `Halted(opv)` for a halt opcode
and `UnexpectedHaltOpcode` for any other (unreachable, rule R107); any other offset advances the pc. -/
def CoreState.sequence (c : CoreState p) (haltOpcode : Bool) (opv : Word p.W) : HandlerResult p → CoreState p
  | .stop o => c.endRun o
  | .effect c' off =>
    if off = 0 then
      if haltOpcode then c'.endRun (.halted opv)
      else c'.raise .unexpectedHaltOpcode c'.pc
    else c'.advance off

end Sys2Proof.Machine
end

