-- ==== Sys2Proof/Machine/Operands.lean ====
section
/-! DEFINITION. Operands: the three forms (30_encoding.md rules R74, R76), the signed reading (00_scope.md rule R8), the register bounds
checks and the operand value (40_dispatch_and_sequencer.md rule R102), and the issue of an instruction to its handler. -/

namespace Sys2Proof.Machine

/-- How an opcode takes `rhs` (30_encoding.md rule R75): as a register index, as a literal, or not at all (`nop`). -/
inductive Form where
  | register
  | immediate
  | unused
deriving DecidableEq, Repr

variable {p : Params}

/-- `signed(v)`, the two's-complement value of a Word (00_scope.md rule R8). -/
def signed {W : Nat} (v : Word W) : Int :=
  if v.msb then (v.toNat : Int) - 2 ^ W else v.toNat

/-- The operand value `opv` (30_encoding.md rule R74): `none` where the register form's index fails its bounds check
(40_dispatch_and_sequencer.md rule R102). The unused form resolves nothing; its handler ignores the value given here. -/
def CoreState.operand (c : CoreState p) : Form → Word p.W → Option (Word p.W)
  | .register, rhs => if c.inFile rhs then some (c.x rhs) else none
  | .immediate, rhs => some rhs
  | .unused, rhs => some rhs

/-- One instruction, from its operand checks to the end of the step (40_dispatch_and_sequencer.md rules R100, R102 to R106): `lhs` is checked
if the opcode uses it, then `rhs` in the register form, then the handler runs on the operand value, then the sequencer. -/
def CoreState.issue (c : CoreState p) (usesLhs : Bool) (form : Form) (haltOpcode : Bool) (lhs rhs : Word p.W)
    (handler : CoreState p → Word p.W → Word p.W → HandlerResult p) : CoreState p :=
  if usesLhs && !c.inFile lhs then c.raise .outOfBoundsRegister lhs
  else
    match c.operand form rhs with
    | none => c.raise .outOfBoundsRegister rhs
    | some opv => c.sequence haltOpcode opv (handler c lhs opv)

/-- An instruction of fields `lhs`, `rhs` on a machine: its fields read as Words, and always a next state (every error is one,
60_exceptions.md rule R187). A field that is no `W`-bit number is taken modulo `2^W` (log 2). -/
def State.issue (s : State) (usesLhs : Bool) (form : Form) (haltOpcode : Bool) (lhs rhs : Nat)
    (handler : CoreState s.params → Word s.params.W → Word s.params.W → HandlerResult s.params) :
    Host.Outcome State Fault Refusal :=
  .next
    { params := s.params
      core := s.core.issue usesLhs form haltOpcode (BitVec.ofNat s.params.W lhs) (BitVec.ofNat s.params.W rhs) handler }

end Sys2Proof.Machine
end

