-- ==== Sys2Proof/Machine/Flags.lean ====
section
/-! DEFINITION. There are no flags, condition codes or predicates (10_state.md rule R32): no instruction computes one. What stands here is
the one comparison of the machine, whose whole effect is a pc-offset (43_compare_skip_nop.md rule R134). -/

namespace Sys2Proof.Machine

/-- The offset of a compare: 1 if equal (fall through), 2 if unequal (skip the next instruction)
(43_compare_skip_nop.md rule R134; 90_conflicts.md C1). -/
def compareOffset {W : Nat} (a b : Word W) : Word W := if a = b then 1 else 2

end Sys2Proof.Machine
end

