-- ==== Sys2Proof/Machine/Arithmetic.lean ====
section
/-! DEFINITION. The arithmetic instructions (41_arithmetic.md): add, addc, div, divc, mod, modc, mul, mulc. All on unsigned Words of `W`
bits, wrapping silently (rule R120). -/

namespace Sys2Proof.Machine

variable {p : Params}

/-- `x[lhs] <- a op b; off = 1` (41_arithmetic.md rule R120). -/
def arithmetic (op : Word p.W → Word p.W → Word p.W) (c : CoreState p) (lhs opv : Word p.W) : HandlerResult p :=
  .effect (c.setX lhs (op (c.x lhs) opv)) 1

/-- As `arithmetic`, but a zero divisor raises `DivisionByZero(info)` and writes nothing (41_arithmetic.md rule R129). -/
def division (op : Word p.W → Word p.W → Word p.W) (info : Word p.W) (c : CoreState p) (lhs opv : Word p.W) :
    HandlerResult p :=
  if opv = 0 then .stop (.error .divisionByZero info) else arithmetic op c lhs opv

/-- `(a + b) mod 2^W` (41_arithmetic.md rule R120). -/
def aluAdd {W : Nat} (a b : Word W) : Word W := a + b

/-- `(a * b) mod 2^W` (41_arithmetic.md rule R120). -/
def aluMul {W : Nat} (a b : Word W) : Word W := a * b

/-- `floor(a / b)`, unsigned, for `b != 0` (41_arithmetic.md rule R120). -/
def aluDiv {W : Nat} (a b : Word W) : Word W := BitVec.udiv a b

/-- `a - b * floor(a / b)`, unsigned, for `b != 0` (41_arithmetic.md rule R120). -/
def aluMod {W : Nat} (a b : Word W) : Word W := BitVec.umod a b

/-- `add rA, rB` (41_arithmetic.md rule R121). -/
def execAdd (lhs rhs : Nat) (s : State) : Host.Outcome State Fault Refusal :=
  s.issue true .register false lhs rhs (arithmetic aluAdd)

/-- `addc rA, k` (41_arithmetic.md rule R122). -/
def execAddc (lhs rhs : Nat) (s : State) : Host.Outcome State Fault Refusal :=
  s.issue true .immediate false lhs rhs (arithmetic aluAdd)

/-- `div rA, rB` (41_arithmetic.md rule R123); the error's `info` is the `rhs` field (rule R129). -/
def execDiv (lhs rhs : Nat) (s : State) : Host.Outcome State Fault Refusal :=
  s.issue true .register false lhs rhs (division aluDiv (BitVec.ofNat _ rhs))

/-- `divc rA, k` (41_arithmetic.md rule R124); the error's `info` is 0 (rule R129). -/
def execDivc (lhs rhs : Nat) (s : State) : Host.Outcome State Fault Refusal :=
  s.issue true .immediate false lhs rhs (division aluDiv 0)

/-- `mod rA, rB` (41_arithmetic.md rule R125); the error's `info` is the `rhs` field (rule R129). -/
def execMod (lhs rhs : Nat) (s : State) : Host.Outcome State Fault Refusal :=
  s.issue true .register false lhs rhs (division aluMod (BitVec.ofNat _ rhs))

/-- `modc rA, k` (41_arithmetic.md rule R126); the error's `info` is 0 (rule R129). -/
def execModc (lhs rhs : Nat) (s : State) : Host.Outcome State Fault Refusal :=
  s.issue true .immediate false lhs rhs (division aluMod 0)

/-- `mul rA, rB` (41_arithmetic.md rule R127). -/
def execMul (lhs rhs : Nat) (s : State) : Host.Outcome State Fault Refusal :=
  s.issue true .register false lhs rhs (arithmetic aluMul)

/-- `mulc rA, k` (41_arithmetic.md rule R128). -/
def execMulc (lhs rhs : Nat) (s : State) : Host.Outcome State Fault Refusal :=
  s.issue true .immediate false lhs rhs (arithmetic aluMul)

end Sys2Proof.Machine
end

