-- ==== Sys2Proof/Machine/Assignment.lean ====
section
/-! DEFINITION. The assignment instructions (42_assignment.md): set, setc. -/

namespace Sys2Proof.Machine

variable {p : Params}

/-- `x[lhs] <- opv; off = 1` (42_assignment.md rules R130, R131). -/
def assignment (c : CoreState p) (lhs opv : Word p.W) : HandlerResult p := .effect (c.setX lhs opv) 1

/-- `set rA, rB` (42_assignment.md rule R130). -/
def execSet (lhs rhs : Nat) (s : State) : Host.Outcome State Fault Refusal :=
  s.issue true .register false lhs rhs assignment

/-- `setc rA, k` (42_assignment.md rule R131). -/
def execSetc (lhs rhs : Nat) (s : State) : Host.Outcome State Fault Refusal :=
  s.issue true .immediate false lhs rhs assignment

end Sys2Proof.Machine
end

