-- ==== Sys2Proof/Machine/Compare.lean ====
section
/-! DEFINITION. Compare-and-skip and no-operation (43_compare_skip_nop.md): eq, eqc, nop. -/

namespace Sys2Proof.Machine

variable {p : Params}

/-- `off = if x[lhs] = opv then 1 else 2`; nothing is recorded (43_compare_skip_nop.md rules R135, R136). -/
def compareSkip (c : CoreState p) (lhs opv : Word p.W) : HandlerResult p := .effect c (compareOffset (c.x lhs) opv)

/-- `eq rA, rB` (43_compare_skip_nop.md rule R135). -/
def execEq (lhs rhs : Nat) (s : State) : Host.Outcome State Fault Refusal :=
  s.issue true .register false lhs rhs compareSkip

/-- `eqc rA, k` (43_compare_skip_nop.md rule R136). -/
def execEqc (lhs rhs : Nat) (s : State) : Host.Outcome State Fault Refusal :=
  s.issue true .immediate false lhs rhs compareSkip

/-- `nop`: `off = 1`, both fields ignored (43_compare_skip_nop.md rule R137). -/
def execNop (lhs rhs : Nat) (s : State) : Host.Outcome State Fault Refusal :=
  s.issue false .unused false lhs rhs (fun c _ _ => .effect c 1)

end Sys2Proof.Machine
end

