-- ==== Sys2Proof/Machine/Halt.lean ====
section
/-! DEFINITION. The halt instructions (46_halt.md): ret, retc. -/

namespace Sys2Proof.Machine

variable {p : Params}

/-- `off = 0`: the run ends with the operand value as its result (46_halt.md rule R155; 40_dispatch_and_sequencer.md rule R106). -/
def halt (c : CoreState p) (_lhs _opv : Word p.W) : HandlerResult p := .effect c 0

/-- `ret rB` (46_halt.md rule R156). -/
def execRet (lhs rhs : Nat) (s : State) : Host.Outcome State Fault Refusal :=
  s.issue false .register true lhs rhs halt

/-- `retc k` (46_halt.md rule R157). -/
def execRetc (lhs rhs : Nat) (s : State) : Host.Outcome State Fault Refusal :=
  s.issue false .immediate true lhs rhs halt

end Sys2Proof.Machine
end

