-- ==== Sys2Proof/Machine/Jump.lean ====
section
/-! DEFINITION. The relative jumps (45_jump.md): jmp, jmpc. -/

namespace Sys2Proof.Machine

variable {p : Params}

/-- The pc-offset of a displacement `d`: `d + 1` if its top bit is 0, else `d` itself (45_jump.md rule R150). -/
def jumpOffset {W : Nat} (d : Word W) : Word W := if d.msb then d else d + 1

/-- A jump by the displacement `d`, the operand value; no register is written (45_jump.md rule R150). -/
def jump (c : CoreState p) (_lhs d : Word p.W) : HandlerResult p := .effect c (jumpOffset d)

/-- `jmp rB` (45_jump.md rule R151). -/
def execJmp (lhs rhs : Nat) (s : State) : Host.Outcome State Fault Refusal :=
  s.issue false .register false lhs rhs jump

/-- `jmpc k` (45_jump.md rule R152). -/
def execJmpc (lhs rhs : Nat) (s : State) : Host.Outcome State Fault Refusal :=
  s.issue false .immediate false lhs rhs jump

end Sys2Proof.Machine
end

