-- ==== Sys2Proof/Machine/Print.lean ====
section
/-! DEFINITION. The print instructions (44_print.md): print, printc. -/

namespace Sys2Proof.Machine

variable {p : Params}

/-- `s = string_at(a); if s = absent: end_run(PrintFault(a)); out <- out ++ s; off = 1` with `a` the operand value
(44_print.md rules R141 to R143). -/
def printString (c : CoreState p) (_lhs a : Word p.W) : HandlerResult p :=
  match c.strmem.stringAt a with
  | none => .stop (.printFault a)
  | some bytes => .effect (c.append bytes) 1

/-- `print rB` (44_print.md rule R141). -/
def execPrint (lhs rhs : Nat) (s : State) : Host.Outcome State Fault Refusal :=
  s.issue false .register false lhs rhs printString

/-- `printc k` (44_print.md rule R142). -/
def execPrintc (lhs rhs : Nat) (s : State) : Host.Outcome State Fault Refusal :=
  s.issue false .immediate false lhs rhs printString

end Sys2Proof.Machine
end

