-- ==== Sys2Proof/Machine/Dispatch.lean ====
section
/-! DEFINITION. The opcode dispatch multiplexer (40_dispatch_and_sequencer.md rule R103): one meaning per opcode. -/

namespace Sys2Proof.Machine

def exec (i : Instr) (s : State) : Host.Outcome State Fault Refusal :=
  match i with
  | .add lhs rhs => Sys2Proof.Machine.execAdd lhs rhs s
  | .addc lhs rhs => Sys2Proof.Machine.execAddc lhs rhs s
  | .div lhs rhs => Sys2Proof.Machine.execDiv lhs rhs s
  | .divc lhs rhs => Sys2Proof.Machine.execDivc lhs rhs s
  | .mod lhs rhs => Sys2Proof.Machine.execMod lhs rhs s
  | .modc lhs rhs => Sys2Proof.Machine.execModc lhs rhs s
  | .mul lhs rhs => Sys2Proof.Machine.execMul lhs rhs s
  | .mulc lhs rhs => Sys2Proof.Machine.execMulc lhs rhs s
  | .set lhs rhs => Sys2Proof.Machine.execSet lhs rhs s
  | .setc lhs rhs => Sys2Proof.Machine.execSetc lhs rhs s
  | .eq lhs rhs => Sys2Proof.Machine.execEq lhs rhs s
  | .eqc lhs rhs => Sys2Proof.Machine.execEqc lhs rhs s
  | .nop lhs rhs => Sys2Proof.Machine.execNop lhs rhs s
  | .print lhs rhs => Sys2Proof.Machine.execPrint lhs rhs s
  | .printc lhs rhs => Sys2Proof.Machine.execPrintc lhs rhs s
  | .jmp lhs rhs => Sys2Proof.Machine.execJmp lhs rhs s
  | .jmpc lhs rhs => Sys2Proof.Machine.execJmpc lhs rhs s
  | .ret lhs rhs => Sys2Proof.Machine.execRet lhs rhs s
  | .retc lhs rhs => Sys2Proof.Machine.execRetc lhs rhs s

end Sys2Proof.Machine
end

