-- ==== Sys2Proof/Machine/HostOps.lean ====
section
/-! DEFINITION. The host's transactions (47_host_operations.md): Load, RegGet, RegSet, Run, the supplying of STRMEM, and what the host
sees (rule R167). Construct is `CoreState.construct`. -/

namespace Sys2Proof.Machine

variable {p : Params}

/-- The least slot of a word sequence whose opcode field is 19 or more (47_host_operations.md rule R162). -/
def firstInvalid {W : Nat} (ws : List (InstrWord W)) : Option Nat :=
  ws.findIdx? (fun w => decide (19 ≤ (opcodeField w).toNat))

/-- Why Load refuses a word sequence, if it does: empty, too long, or an invalid opcode, in this order
(47_host_operations.md rule R162). -/
def loadRejection (p : Params) (ws : List (InstrWord p.W)) : Option LoadRejection :=
  if ws.length = 0 then some .empty
  else if p.PROG_CAP < ws.length then some .tooLong
  else (firstInvalid ws).map .invalidOpcode

/-- `Load(p)`: all or nothing (47_host_operations.md rule R162). -/
def CoreState.load (c : CoreState p) (ws : List (InstrWord p.W)) : CoreState p :=
  match loadRejection p ws with
  | some r => { c with response := some (.loadRejected r) }
  | none => { c with prog := ws, response := some .ok }

/-- `RegGet(i)` (47_host_operations.md rule R163). -/
def CoreState.regGet (c : CoreState p) (i : Word p.W) : CoreState p :=
  { c with response := some (if c.inFile i then .value (c.x i) else .error .outOfBoundsRegister i) }

/-- `RegSet(i, v)` (47_host_operations.md rule R164). -/
def CoreState.regSet (c : CoreState p) (i v : Word p.W) : CoreState p :=
  if c.inFile i then { c.setX i v with response := some .ok }
  else { c with response := some (.error .outOfBoundsRegister i) }

/-- The host supplies the whole string memory anew (20_memory.md rule R53; log 8). -/
def CoreState.supplyStrmem (c : CoreState p) (cells : List (Word p.W × Byte)) : CoreState p :=
  { c with strmem := Memory.ofCells cells, response := some .ok }

/-- An accepted transaction (47_host_operations.md rule R160). -/
def CoreState.perform (c : CoreState p) : HostCommand p.W → CoreState p
  | .load ws => c.load ws
  | .regGet i => c.regGet i
  | .regSet i v => c.regSet i v
  | .run => c.startRun
  | .supplyStrmem cells => c.supplyStrmem cells

/-- The machine while no run is in progress: it accepts the first transaction presented (47_host_operations.md rule R161); with none
presented it stays as it is (log 5). -/
def CoreState.hostStep (c : CoreState p) : CoreState p :=
  match c.inbox with
  | [] => c
  | cmd :: later => { c with inbox := later }.perform cmd

/-- What the host can observe (47_host_operations.md rule R167): not `pc`, `steps` or the program. -/
structure HostView (p : Params) where
  /-- the registers, as RegGet reads them; `none` while RUNNING, when no RegGet is accepted (47_host_operations.md rule R161) -/
  regs : Option (Vector (Word p.W) p.NREG)
  status : Status
  /-- `none` also while RUNNING (40_dispatch_and_sequencer.md rule R109) -/
  outcome : Option (RunOutcome p.W)
  /-- `none` also while RUNNING (40_dispatch_and_sequencer.md rule R109) -/
  result : Option (Word p.W)
  /-- `none` also while RUNNING (40_dispatch_and_sequencer.md rule R109) -/
  faultPc : Option (Word p.W)
  /-- received as the bytes are appended, so while RUNNING too -/
  out : List Byte
  response : Option (Response p.W)
deriving DecidableEq, Repr

/-- A word that the host cannot observe while a run is in progress (40_dispatch_and_sequencer.md rule R109). -/
def CoreState.unlessRunning {α : Type} (c : CoreState p) (v : Option α) : Option α :=
  if c.status = .running then none else v

/-- The host's view of a core (47_host_operations.md rules R161, R167; 40_dispatch_and_sequencer.md rule R109). -/
def CoreState.hostView (c : CoreState p) : HostView p :=
  { regs := c.unlessRunning (some c.regs)
    status := c.status
    outcome := c.unlessRunning c.outcome
    result := c.unlessRunning c.result
    faultPc := c.unlessRunning c.faultPc
    out := c.out
    response := c.response }

end Sys2Proof.Machine
end

