-- ==== Sys2Proof/Machine/RunLoop.lean ====
section
/-! DEFINITION. One pass of the run loop (40_dispatch_and_sequencer.md rule R100): budget, fetch, decode, dispatch; and one step of the
machine with its host. -/

namespace Sys2Proof.Machine

variable {p : Params}

/-- The step budget is used up (40_dispatch_and_sequencer.md rule R108). -/
def CoreState.budgetSpent (c : CoreState p) : Bool := decide (p.STEP_BUDGET = some c.steps)

/-- `prog[pc]`, where there is such a slot (40_dispatch_and_sequencer.md rule R101). -/
def CoreState.fetch (c : CoreState p) : Option (InstrWord p.W) := c.prog[c.pc.toNat]?

/-- `steps <- steps + 1` (10_state.md rule R31). -/
def CoreState.countStep (c : CoreState p) : CoreState p := { c with steps := c.steps + 1 }

/-- One pass of the run loop of a RUNNING machine (40_dispatch_and_sequencer.md rule R100). A fetch outside the program or of an invalid
word, which no run meets, stops by name (log 10). -/
def State.runStep (s : State) : Host.Outcome State Fault Refusal :=
  if s.core.budgetSpent then .next { params := s.params, core := s.core.endRun .budgetExhausted }
  else
    match s.core.fetch with
    | none => .fault .fetchOutsideProgram
    | some w =>
      match decode w with
      | .rejected (.invalidOpcode n) => .refused (.invalidOpcode n)
      | .instr i => exec i { params := s.params, core := s.core.countStep }

/-- One step of the machine: Construct while the reset line is high (47_host_operations.md rule R166), else a pass of the run loop while
RUNNING, else the host's next transaction (rule R161). -/
def State.cycle (s : State) : Host.Outcome State Fault Refusal :=
  if s.core.rst then .next { params := s.params, core := s.core.construct }
  else if s.core.status = .running then s.runStep
  else .next { params := s.params, core := s.core.hostStep }

/-- The state in which the word `w` stands in slot 0 and a run has just started: what a Load of a program that begins with `w` and a Run
leave (47_host_operations.md rules R162, R165; log 9). -/
def CoreState.placeFirst (c : CoreState p) (w : InstrWord p.W) : CoreState p :=
  { c with prog := w :: c.prog.tail, rst := false }.startRun

end Sys2Proof.Machine
end

