-- ==== Sys2Proof/Machine/Step.lean ====
section
/-! DEFINITION. The step function of the machine, and the placing of an instruction where the next step fetches it. -/

namespace Sys2Proof.Machine

/-- One step (40_dispatch_and_sequencer.md rule R100; 47_host_operations.md rules R161, R166). -/
def step (s : State) : Host.Outcome State Fault Refusal := s.cycle

/-- `s` with the instruction word `w` in slot 0 and a run just started, so that the next step fetches and runs it (log 9). The word is one
of `8 + 2W` bits (30_encoding.md rule R72); bits from `nbits` up are 0. -/
def State.withFetchWord (s : State) (nbits w : Nat) : State :=
  { params := s.params, core := s.core.placeFirst (BitVec.ofNat _ (w % 2 ^ nbits)) }

end Sys2Proof.Machine
end

