-- ==== Sys2Proof/Machine/Assembly.lean ====
section
/-! DEFINITION. The assembler syntax of 30_encoding.md rules R85 and R87: text to instructions and back. No step of the machine uses it. What
rule R85 leaves open of the lexical form is log 11. -/

namespace Sys2Proof.Machine

/-- An operand (30_encoding.md rule R85). -/
inductive Operand where
  | reg (n : Nat)
  | lit (k : Int)
  | label (name : String)
deriving DecidableEq, Repr

/-- An instruction as written: its mnemonic and its operands (30_encoding.md rule R85). -/
structure AsmInstr where
  mnemonic : String
  operands : List Operand
deriving DecidableEq, Repr

/-- A line as written (30_encoding.md rule R85); the comment is dropped. -/
structure AsmLine where
  label : Option String
  instr : Option AsmInstr
deriving DecidableEq, Repr

/-- The 19 mnemonics; the place in the list is the opcode number (30_encoding.md rule R75). -/
def mnemonics : List String :=
  ["add", "addc", "div", "divc", "mod", "modc", "mul", "mulc", "set", "setc", "eq", "eqc", "nop", "print", "printc",
    "jmp", "jmpc", "ret", "retc"]

/-- The Word of a literal: literals are reduced modulo `2^W`, and `-k` is `2^W - k` (30_encoding.md rule R85). -/
def literalWord (W : Nat) (k : Int) : Nat := (k % (2 : Int) ^ W).toNat

/-- The displacement that a label at slot `t` assembles to in a `jmpc` at slot `j`; a jump to itself has no encoding
(30_encoding.md rule R85; 45_jump.md rule R150). -/
def labelDisplacement (W j t : Nat) : Option Nat :=
  if j < t then some (t - j - 1) else if t < j then some (2 ^ W - (j - t)) else none

/-- A register index has to fit its field of `W` bits; it may exceed `NREG - 1` (30_encoding.md rules R72, R85). -/
def registerField (W n : Nat) : Option Nat := if n < 2 ^ W then some n else none

/-- The instruction that a written instruction at slot `j` stands for, with the given label slots; unused fields are 0
(30_encoding.md rules R79, R85). -/
def AsmInstr.assemble (W : Nat) (labels : List (String × Nat)) (j : Nat) (a : AsmInstr) : Option Instr :=
  match mnemonics.idxOf a.mnemonic, a.operands with
  | 12, [] => some (.nop 0 0)
  | 16, [.label name] => do
    let t ← labels.lookup name
    let k ← labelDisplacement W j t
    pure (.jmpc 0 k)
  | n, [.reg x, .reg y] =>
    if n ≤ 11 ∧ isRegisterForm n then do
      let x ← registerField W x
      let y ← registerField W y
      instrOfOpcode n x y
    else none
  | n, [.reg x, .lit k] =>
    if n ≤ 11 ∧ isImmediateForm n then do
      let x ← registerField W x
      instrOfOpcode n x (literalWord W k)
    else none
  | n, [.reg y] =>
    if 13 ≤ n ∧ isRegisterForm n then do
      let y ← registerField W y
      instrOfOpcode n 0 y
    else none
  | n, [.lit k] => if 13 ≤ n ∧ isImmediateForm n then instrOfOpcode n 0 (literalWord W k) else none
  | _, _ => none

/-- The labels of a text with their slots: a label names the slot of the next instruction, the first being slot 0
(30_encoding.md rule R85). A label with no instruction after it names the slot one past the last (DESIGN CHOICE, log 11: the rule is
silent there). -/
def labelSlots : List AsmLine → Nat → List (String × Nat)
  | [], _ => []
  | line :: rest, slot =>
    let later := labelSlots rest (if line.instr.isSome then slot + 1 else slot)
    match line.label with
    | none => later
    | some name => (name, slot) :: later

/-- The instructions of a text's lines from `slot` on, all labels known (30_encoding.md rule R85). -/
def assembleFrom (W : Nat) (labels : List (String × Nat)) : List AsmLine → Nat → Option (List Instr)
  | [], _ => some []
  | line :: rest, slot =>
    match line.instr with
    | none => assembleFrom W labels rest slot
    | some a => do
      let i ← a.assemble W labels slot
      let later ← assembleFrom W labels rest (slot + 1)
      pure (i :: later)

/-- The program of a text's lines; a label defined twice is refused (log 11). -/
def assembleLines (W : Nat) (lines : List AsmLine) : Option (List Instr) :=
  if ((labelSlots lines 0).map Prod.fst).Nodup then assembleFrom W (labelSlots lines 0) lines 0 else none

/-- The value of a run of digits, each smaller than the base, most significant first. -/
def digitsValue (base : Nat) (digit : Char → Option Nat) (cs : List Char) : Option Nat :=
  cs.foldl (fun acc c => do
    let v ← acc
    let d ← digit c
    pure (v * base + d)) (if cs.isEmpty then none else some 0)

/-- A decimal digit. -/
def decimalDigit (c : Char) : Option Nat :=
  if '0'.toNat ≤ c.toNat ∧ c.toNat ≤ '9'.toNat then some (c.toNat - '0'.toNat) else none

/-- A hexadecimal digit, of either case. -/
def hexDigit (c : Char) : Option Nat :=
  if 'a'.toNat ≤ c.toNat ∧ c.toNat ≤ 'f'.toNat then some (c.toNat - 'a'.toNat + 10)
  else if 'A'.toNat ≤ c.toNat ∧ c.toNat ≤ 'F'.toNat then some (c.toNat - 'A'.toNat + 10)
  else decimalDigit c

/-- Whether a text can be a label's name: letters, digits and `_`, no digit first (log 11). -/
def isName : List Char → Bool
  | [] => false
  | c :: cs =>
    let letter (c : Char) : Bool := c.isAlpha || c == '_'
    letter c && cs.all (fun d => letter d || d.isDigit)

/-- `register := 'r' decimal` and `literal := decimal | '+' decimal | '0x' hex | '-' decimal` (30_encoding.md rule R85); what is neither
and can be a name is a label. -/
def parseOperand (cs : List Char) : Option Operand :=
  let decimal := digitsValue 10 decimalDigit
  match cs with
  | '+' :: ds => (decimal ds).map (fun n => .lit n)
  | '-' :: ds => (decimal ds).map (fun n => .lit (-(n : Int)))
  | '0' :: 'x' :: ds => (digitsValue 16 hexDigit ds).map (fun n => .lit n)
  | _ =>
    match decimal cs, cs with
    | some n, _ => some (.lit n)
    | none, 'r' :: ds =>
      match decimal ds with
      | some n => some (.reg n)
      | none => if isName cs then some (.label (String.ofList cs)) else none
    | none, _ => if isName cs then some (.label (String.ofList cs)) else none

/-- A blank or a tab. -/
def isBlank (c : Char) : Bool := c == ' ' || c == '\t' || c == '\r'

/-- The text without the blanks around it. -/
def trimBlanks (cs : List Char) : List Char :=
  ((cs.dropWhile isBlank).reverse.dropWhile isBlank).reverse

/-- The parts of a text between the separators. -/
def splitAtChar (sep : Char) : List Char → List (List Char)
  | [] => [[]]
  | c :: cs =>
    match splitAtChar sep cs with
    | [] => [[c]]
    | part :: parts => if c = sep then [] :: part :: parts else (c :: part) :: parts

/-- `instr := mnemonic [operand [',' operand]]` (30_encoding.md rule R85). -/
def parseInstr (cs : List Char) : Option AsmInstr :=
  let word := cs.takeWhile (fun c => !isBlank c)
  match trimBlanks (cs.dropWhile (fun c => !isBlank c)) with
  | [] => some { mnemonic := String.ofList word, operands := [] }
  | rest => do
    let operands ← (splitAtChar ',' rest).mapM (fun part => parseOperand (trimBlanks part))
    pure { mnemonic := String.ofList word, operands := operands }

/-- A label's name: a name that does not read as a register (log 11). -/
def parseLabel (cs : List Char) : Option String :=
  match parseOperand cs with
  | some (.label name) => some name
  | _ => none

/-- `line := [label ':'] [instr] [';' comment]` (30_encoding.md rule R85). -/
def parseLine (cs : List Char) : Option AsmLine :=
  let body (rest : List Char) : Option (Option AsmInstr) :=
    match trimBlanks rest with
    | [] => some none
    | code => (parseInstr code).map some
  match splitAtChar ':' (cs.takeWhile (fun c => c != ';')) with
  | [code] => do
    let i ← body code
    pure { label := none, instr := i }
  | [name, code] => do
    let l ← parseLabel (trimBlanks name)
    let i ← body code
    pure { label := some l, instr := i }
  | _ => none

/-- The assembler: a text to its instructions, `none` where the text is no program (30_encoding.md rule R85). -/
def assemble (W : Nat) (text : String) : Option (List Instr) := do
  let lines ← (splitAtChar '\n' text.toList).mapM parseLine
  assembleLines W lines

/-- An instruction as written, unused fields omitted; the operand of `jmpc` as its signed value (30_encoding.md rule R87). -/
def disassemble (W : Nat) (i : Instr) : AsmInstr :=
  let n := opcodeNumber i
  let second : Operand :=
    if n = 16 then .lit (signed (BitVec.ofNat W i.rhs)) else if isRegisterForm n then .reg i.rhs else .lit i.rhs
  { mnemonic := mnemonics.getD n ""
    operands := if n = 12 then [] else if usesLhs n then [.reg i.lhs, second] else [second] }

/-- An operand as text; a literal with an explicit sign where `signedForm` (30_encoding.md rules R85, R87). -/
def Operand.text (signedForm : Bool) : Operand → String
  | .reg n => "r" ++ Nat.repr n
  | .lit k => (if k < 0 then "-" else if signedForm then "+" else "") ++ Nat.repr k.natAbs
  | .label name => name

/-- An instruction as text: `mnemonic lhs, rhs` (30_encoding.md rules R85, R87). -/
def AsmInstr.text (a : AsmInstr) : String :=
  let shown := a.operands.map (Operand.text (a.mnemonic == "jmpc"))
  match shown with
  | [] => a.mnemonic
  | first :: rest => rest.foldl (fun text o => text ++ ", " ++ o) (a.mnemonic ++ " " ++ first)

/-- The disassembler (30_encoding.md rule R87). -/
def disassembleText (W : Nat) (i : Instr) : String := (disassemble W i).text

end Sys2Proof.Machine
end

