-- ==== Sys2Proof/Safety.lean ====
section
/-! DEFINITION. The vocabulary of the claims: what a legal state is, what a run's end records, which outcomes an opcode can have. -/

namespace Sys2Proof.Machine

variable {p : Params}

/-- What holds of a core between any two steps, whatever the host presents. -/
structure CoreState.Inv (c : CoreState p) : Prop where
  /-- the program is never empty (10_state.md rule R28) -/
  programNonempty : 1 ≤ c.prog.length
  /-- the program fits its store (10_state.md rule R28) -/
  programFits : c.prog.length ≤ p.PROG_CAP
  /-- the store holds no invalid opcode (30_encoding.md rule R78) -/
  opcodesValid : ∀ w ∈ c.prog, (opcodeField w).toNat ≤ 18
  /-- at every fetch `pc < L` (40_dispatch_and_sequencer.md rule R101) -/
  pcInProgram : c.status = .running → c.pc.toNat < c.prog.length
  /-- a run executes at most `STEP_BUDGET` instructions (40_dispatch_and_sequencer.md rule R108) -/
  budgetKept : c.status = .running → ∀ n, p.STEP_BUDGET = some n → c.steps ≤ n
  /-- `outcome` is valid when `status = ENDED` and only then (10_state.md rule R29) -/
  outcomeValid : c.status = .ended ↔ c.outcome.isSome
  /-- `result` is valid exactly for the outcomes that have one (10_state.md rule R29) -/
  resultRecorded : c.result = c.outcome.bind RunOutcome.resultWord
  /-- `fault_pc` is valid exactly for the outcomes that have one, and is the pc with which the run ended (60_exceptions.md rule R188);
  that the pc still holds that value between runs is the model's choice (log 3) -/
  faultPcRecorded : c.faultPc = c.outcome.bind (fun o => o.faultPcWord c.pc)
  /-- `UnexpectedHaltOpcode` is unreachable (40_dispatch_and_sequencer.md rule R107) -/
  noUnexpectedHalt : ∀ info, c.outcome ≠ some (.error .unexpectedHaltOpcode info)
  /-- the string memory keeps its canonical form -/
  strmemCanonical : c.strmem.wf
  /-- the string memory maps `W`-bit addresses only (20_memory.md rule R50) -/
  strmemWithin : c.strmem.within p.W

/-- A legal state: parameters as 00_scope.md rule R6 allows them, and the core's invariant. -/
def State.Inv (s : State) : Prop := s.params.Valid ∧ s.core.Inv

/-- The state `c` with the end of its run recorded in the host-readable words (10_state.md rule R29) and answered to the host
(47_host_operations.md rule R165), every other field as in `c`. -/
def CoreState.recorded (c : CoreState p) (o : RunOutcome p.W) (result faultPc : Option (Word p.W)) : CoreState p :=
  { c with status := .ended, outcome := some o, result := result, faultPc := faultPc, response := some (.ended o) }

/-- Why an instruction ends its run: the columns of the table of 60_exceptions.md rule R196, and the halt
(40_dispatch_and_sequencer.md rule R109). -/
inductive EndCause where
  /-- column OOBR(lhs) -/
  | registerLhs
  /-- column OOBR(rhs) -/
  | registerRhs
  /-- column DBZ -/
  | divisionByZero
  /-- column PF -/
  | printFault
  /-- column OOBPC -/
  | programCounter
  /-- no column: a halt opcode -/
  | halt
deriving DecidableEq, Repr

/-- Which causes an opcode number has: the table of 60_exceptions.md rule R196, column by column, and the halt for the two halt opcodes
alone (40_dispatch_and_sequencer.md rule R109). -/
def canEndBy (opcode : Nat) : EndCause → Bool
  | .registerLhs => opcode ∈ [0, 1, 2, 3, 4, 5, 6, 7, 8, 9, 10, 11]
  | .registerRhs => opcode ∈ [0, 2, 4, 6, 8, 10, 13, 15, 17]
  | .divisionByZero => opcode ∈ [2, 3, 4, 5]
  | .printFault => opcode ∈ [13, 14]
  | .programCounter => opcode ∉ [17, 18]
  | .halt => opcode ∈ [17, 18]

/-- The outcomes that each cause gives a run that the instruction `i` ends. A register cause gives the index of its own field, which is out
of range; that of `rhs` comes after `lhs` has passed its check (60_exceptions.md rules R182, R183, R186). -/
inductive EndsBy (p : Params) (i : Instr) : EndCause → RunOutcome p.W → Prop where
  | registerLhs (h : p.NREG ≤ (BitVec.ofNat p.W i.lhs).toNat) :
      EndsBy p i .registerLhs (.error .outOfBoundsRegister (BitVec.ofNat p.W i.lhs))
  | registerRhs (h : p.NREG ≤ (BitVec.ofNat p.W i.rhs).toNat)
      (hl : usesLhs (opcodeNumber i) = true → (BitVec.ofNat p.W i.lhs).toNat < p.NREG) :
      EndsBy p i .registerRhs (.error .outOfBoundsRegister (BitVec.ofNat p.W i.rhs))
  | divisionByZero (info : Word p.W) : EndsBy p i .divisionByZero (.error .divisionByZero info)
  | printFault (a : Word p.W) : EndsBy p i .printFault (.printFault a)
  | programCounter (t : Word p.W) : EndsBy p i .programCounter (.error .outOfBoundsProgramCounter t)
  | halt (v : Word p.W) : EndsBy p i .halt (.halted v)

/-- The instruction with its unused fields 0, as the assembler writes it (30_encoding.md rule R79). -/
def clearUnused (i : Instr) : Option Instr :=
  let n := opcodeNumber i
  instrOfOpcode n (if usesLhs n then i.lhs else 0) (if n = 12 then 0 else i.rhs)

end Sys2Proof.Machine
end

