-- ==== Sys2Proof/Certificates/Slice0/Obligations.lean ====
section
/-! DEFINITION. The statements for the provers. Those that give an instruction's next state give ALL of it: `{ c with … }` leaves every
field that it does not name as it was, and `recorded` (Safety.lean) writes the host-readable words of a run's end and no other. -/

open Sys2Proof Sys2Proof.Machine

/-- Decode and encode agree, at every width and with every operand (30_encoding.md section 1: the pure split and its inverse, which the spec
derives from its own word layout, 92_eei_decisions.md D5 and D6). -/
def Obligations.DecodeEncodeAgree : Prop :=
  (∀ (W : Nat) (w : InstrWord W), (w.toNat / 2 ^ (2 * W)) % 2 ^ 8 ≤ 18 →
      ∃ i, decode w = .instr i ∧ opcodeNumber i = (w.toNat / 2 ^ (2 * W)) % 2 ^ 8 ∧
        i.lhs = (w.toNat / 2 ^ W) % 2 ^ W ∧ i.rhs = w.toNat % 2 ^ W ∧ encode W i = w) ∧
    ∀ (W : Nat) (i : Instr), i.WellFormed W → decode (encode W i) = .instr i

/-- Opcode-field values 19 to 255 denote no instruction, every other word is one (30_encoding.md sections 3 and 4; 92_eei_decisions.md D7). -/
def Obligations.InvalidOpcodesAreRejected : Prop :=
  ∀ (W : Nat) (w : InstrWord W) (n : Nat),
    decode w = .rejected (.invalidOpcode n) ↔ n = (w.toNat / 2 ^ (2 * W)) % 2 ^ 8 ∧ 19 ≤ n

/-- The worked encodings of 30_encoding.md section 6, all twelve rows (the layout is the spec's decision, 92_eei_decisions.md D5, D6, D20). -/
def Obligations.WorkedEncodings : Prop :=
  (assemble 32 "add r1, r2" = some [.add 1 2] ∧ encode 32 (.add 1 2) = 0x000000000100000002#72 ∧
      decodeTableWord 72 0x000000000100000002 = some (.add 1 2)) ∧
    (assemble 32 "addc r2, 1" = some [.addc 2 1] ∧ encode 32 (.addc 2 1) = 0x010000000200000001#72 ∧
      decodeTableWord 72 0x010000000200000001 = some (.addc 2 1)) ∧
    (assemble 32 "addc r2, -1" = some [.addc 2 0xFFFFFFFF] ∧ encode 32 (.addc 2 0xFFFFFFFF) = 0x0100000002FFFFFFFF#72 ∧
      decodeTableWord 72 0x0100000002FFFFFFFF = some (.addc 2 0xFFFFFFFF)) ∧
    (assemble 32 "divc r0, 10" = some [.divc 0 10] ∧ encode 32 (.divc 0 10) = 0x03000000000000000A#72 ∧
      decodeTableWord 72 0x03000000000000000A = some (.divc 0 10)) ∧
    (assemble 32 "setc r3, 0xDEADBEEF" = some [.setc 3 0xDEADBEEF] ∧ encode 32 (.setc 3 0xDEADBEEF) = 0x0900000003DEADBEEF#72 ∧
      decodeTableWord 72 0x0900000003DEADBEEF = some (.setc 3 0xDEADBEEF)) ∧
    (assemble 32 "eqc r2, 10" = some [.eqc 2 10] ∧ encode 32 (.eqc 2 10) = 0x0B000000020000000A#72 ∧
      decodeTableWord 72 0x0B000000020000000A = some (.eqc 2 10)) ∧
    (assemble 32 "nop" = some [.nop 0 0] ∧ encode 32 (.nop 0 0) = 0x0C0000000000000000#72 ∧
      decodeTableWord 72 0x0C0000000000000000 = some (.nop 0 0)) ∧
    (assemble 32 "printc 0x1000" = some [.printc 0 0x1000] ∧ encode 32 (.printc 0 0x1000) = 0x0E0000000000001000#72 ∧
      decodeTableWord 72 0x0E0000000000001000 = some (.printc 0 0x1000)) ∧
    (assemble 32 "jmpc +6" = some [.jmpc 0 6] ∧ encode 32 (.jmpc 0 6) = 0x100000000000000006#72 ∧
      decodeTableWord 72 0x100000000000000006 = some (.jmpc 0 6)) ∧
    (assemble 32 "jmpc -7" = some [.jmpc 0 0xFFFFFFF9] ∧ encode 32 (.jmpc 0 0xFFFFFFF9) = 0x1000000000FFFFFFF9#72 ∧
      decodeTableWord 72 0x1000000000FFFFFFF9 = some (.jmpc 0 0xFFFFFFF9)) ∧
    (assemble 32 "ret r0" = some [.ret 0 0] ∧ encode 32 (.ret 0 0) = 0x110000000000000000#72 ∧
      decodeTableWord 72 0x110000000000000000 = some (.ret 0 0)) ∧
    (assemble 32 "retc 42" = some [.retc 0 42] ∧ encode 32 (.retc 0 42) = 0x12000000000000002A#72 ∧
      decodeTableWord 72 0x12000000000000002A = some (.retc 0 42)) ∧
    decodeTableWord 72 0x130000000000000000 = none

/-- Unused fields have no effect and are not bounds-checked (30_encoding.md section 4; 90_conflicts.md C4; the assembler's 0 is
92_eei_decisions.md D25). -/
def Obligations.UnusedFieldsAreIgnored : Prop :=
  (∀ (s : State) (i j : Instr), opcodeNumber i = opcodeNumber j →
      (usesLhs (opcodeNumber i) = true → i.lhs = j.lhs) → (opcodeNumber i ≠ 12 → i.rhs = j.rhs) → exec i s = exec j s) ∧
    ∀ (s : State) (i : Instr), ∃ j, clearUnused i = some j ∧ exec j s = exec i s

/-- `add` (41_arithmetic.md rule R121): its opcode, its effect with the whole next state, and each of its errors. -/
def Obligations.AddWritesTheSum : Prop :=
  ∀ (p : Params) (c : CoreState p) (l r : Nat), p.Valid → (Instr.add l r).WellFormed p.W →
    (encode p.W (.add l r)).extractLsb' (p.W + p.W) 8 = 0#8 ∧
      (∀ (hl : l < p.NREG) (hr : r < p.NREG), (c.pc + 1).toNat < c.prog.length →
        exec (.add l r) ⟨p, c⟩ = .next ⟨p, { c with regs := c.regs.set l (BitVec.ofNat p.W (c.regs[l].toNat + c.regs[r].toNat)) hl, pc := c.pc + 1 }⟩) ∧
      (∀ (hl : l < p.NREG) (hr : r < p.NREG), c.prog.length ≤ (c.pc + 1).toNat →
        exec (.add l r) ⟨p, c⟩ =
          .next ⟨p, ({ c with regs := c.regs.set l (BitVec.ofNat p.W (c.regs[l].toNat + c.regs[r].toNat)) hl, pc := c.pc + 1 } : CoreState p).recorded
              (.error .outOfBoundsProgramCounter (c.pc + 1)) none (some (c.pc + 1))⟩) ∧
      (l < p.NREG → p.NREG ≤ r → exec (.add l r) ⟨p, c⟩ = .next ⟨p, c.recorded (.error .outOfBoundsRegister (BitVec.ofNat p.W r)) none (some c.pc)⟩) ∧
      (p.NREG ≤ l → exec (.add l r) ⟨p, c⟩ = .next ⟨p, c.recorded (.error .outOfBoundsRegister (BitVec.ofNat p.W l)) none (some c.pc)⟩)

/-- `addc` (41_arithmetic.md rule R122): its opcode, its effect with the whole next state, and each of its errors. -/
def Obligations.AddcWritesTheSum : Prop :=
  ∀ (p : Params) (c : CoreState p) (l r : Nat), p.Valid → (Instr.addc l r).WellFormed p.W →
    (encode p.W (.addc l r)).extractLsb' (p.W + p.W) 8 = 1#8 ∧
      (∀ (hl : l < p.NREG), (c.pc + 1).toNat < c.prog.length →
        exec (.addc l r) ⟨p, c⟩ = .next ⟨p, { c with regs := c.regs.set l (BitVec.ofNat p.W (c.regs[l].toNat + r)) hl, pc := c.pc + 1 }⟩) ∧
      (∀ (hl : l < p.NREG), c.prog.length ≤ (c.pc + 1).toNat →
        exec (.addc l r) ⟨p, c⟩ =
          .next ⟨p, ({ c with regs := c.regs.set l (BitVec.ofNat p.W (c.regs[l].toNat + r)) hl, pc := c.pc + 1 } : CoreState p).recorded
              (.error .outOfBoundsProgramCounter (c.pc + 1)) none (some (c.pc + 1))⟩) ∧
      (p.NREG ≤ l → exec (.addc l r) ⟨p, c⟩ = .next ⟨p, c.recorded (.error .outOfBoundsRegister (BitVec.ofNat p.W l)) none (some c.pc)⟩)

/-- `div` (41_arithmetic.md rule R123): its opcode, its effect with the whole next state, and each of its errors. -/
def Obligations.DivWritesTheQuotient : Prop :=
  ∀ (p : Params) (c : CoreState p) (l r : Nat), p.Valid → (Instr.div l r).WellFormed p.W →
    (encode p.W (.div l r)).extractLsb' (p.W + p.W) 8 = 2#8 ∧
      (∀ (hl : l < p.NREG) (hr : r < p.NREG), c.regs[r] ≠ 0 → (c.pc + 1).toNat < c.prog.length →
        exec (.div l r) ⟨p, c⟩ = .next ⟨p, { c with regs := c.regs.set l (BitVec.ofNat p.W (c.regs[l].toNat / c.regs[r].toNat)) hl, pc := c.pc + 1 }⟩) ∧
      (∀ (hl : l < p.NREG) (hr : r < p.NREG), c.regs[r] ≠ 0 → c.prog.length ≤ (c.pc + 1).toNat →
        exec (.div l r) ⟨p, c⟩ =
          .next ⟨p, ({ c with regs := c.regs.set l (BitVec.ofNat p.W (c.regs[l].toNat / c.regs[r].toNat)) hl, pc := c.pc + 1 } : CoreState p).recorded
              (.error .outOfBoundsProgramCounter (c.pc + 1)) none (some (c.pc + 1))⟩) ∧
      (∀ (hl : l < p.NREG) (hr : r < p.NREG), c.regs[r] = 0 →
        exec (.div l r) ⟨p, c⟩ = .next ⟨p, c.recorded (.error .divisionByZero (BitVec.ofNat p.W r)) none (some c.pc)⟩) ∧
      (l < p.NREG → p.NREG ≤ r → exec (.div l r) ⟨p, c⟩ = .next ⟨p, c.recorded (.error .outOfBoundsRegister (BitVec.ofNat p.W r)) none (some c.pc)⟩) ∧
      (p.NREG ≤ l → exec (.div l r) ⟨p, c⟩ = .next ⟨p, c.recorded (.error .outOfBoundsRegister (BitVec.ofNat p.W l)) none (some c.pc)⟩)

/-- `divc` (41_arithmetic.md rule R124): its opcode, its effect with the whole next state, and each of its errors. -/
def Obligations.DivcWritesTheQuotient : Prop :=
  ∀ (p : Params) (c : CoreState p) (l r : Nat), p.Valid → (Instr.divc l r).WellFormed p.W →
    (encode p.W (.divc l r)).extractLsb' (p.W + p.W) 8 = 3#8 ∧
      (∀ (hl : l < p.NREG), r ≠ 0 → (c.pc + 1).toNat < c.prog.length →
        exec (.divc l r) ⟨p, c⟩ = .next ⟨p, { c with regs := c.regs.set l (BitVec.ofNat p.W (c.regs[l].toNat / r)) hl, pc := c.pc + 1 }⟩) ∧
      (∀ (hl : l < p.NREG), r ≠ 0 → c.prog.length ≤ (c.pc + 1).toNat →
        exec (.divc l r) ⟨p, c⟩ =
          .next ⟨p, ({ c with regs := c.regs.set l (BitVec.ofNat p.W (c.regs[l].toNat / r)) hl, pc := c.pc + 1 } : CoreState p).recorded
              (.error .outOfBoundsProgramCounter (c.pc + 1)) none (some (c.pc + 1))⟩) ∧
      (∀ (hl : l < p.NREG), r = 0 →
        exec (.divc l r) ⟨p, c⟩ = .next ⟨p, c.recorded (.error .divisionByZero (0)) none (some c.pc)⟩) ∧
      (p.NREG ≤ l → exec (.divc l r) ⟨p, c⟩ = .next ⟨p, c.recorded (.error .outOfBoundsRegister (BitVec.ofNat p.W l)) none (some c.pc)⟩)

/-- `mod` (41_arithmetic.md rule R125): its opcode, its effect with the whole next state, and each of its errors. -/
def Obligations.ModWritesTheRemainder : Prop :=
  ∀ (p : Params) (c : CoreState p) (l r : Nat), p.Valid → (Instr.mod l r).WellFormed p.W →
    (encode p.W (.mod l r)).extractLsb' (p.W + p.W) 8 = 4#8 ∧
      (∀ (hl : l < p.NREG) (hr : r < p.NREG), c.regs[r] ≠ 0 → (c.pc + 1).toNat < c.prog.length →
        exec (.mod l r) ⟨p, c⟩ = .next ⟨p, { c with regs := c.regs.set l (BitVec.ofNat p.W (c.regs[l].toNat - c.regs[r].toNat * (c.regs[l].toNat / c.regs[r].toNat))) hl, pc := c.pc + 1 }⟩) ∧
      (∀ (hl : l < p.NREG) (hr : r < p.NREG), c.regs[r] ≠ 0 → c.prog.length ≤ (c.pc + 1).toNat →
        exec (.mod l r) ⟨p, c⟩ =
          .next ⟨p, ({ c with regs := c.regs.set l (BitVec.ofNat p.W (c.regs[l].toNat - c.regs[r].toNat * (c.regs[l].toNat / c.regs[r].toNat))) hl, pc := c.pc + 1 } : CoreState p).recorded
              (.error .outOfBoundsProgramCounter (c.pc + 1)) none (some (c.pc + 1))⟩) ∧
      (∀ (hl : l < p.NREG) (hr : r < p.NREG), c.regs[r] = 0 →
        exec (.mod l r) ⟨p, c⟩ = .next ⟨p, c.recorded (.error .divisionByZero (BitVec.ofNat p.W r)) none (some c.pc)⟩) ∧
      (l < p.NREG → p.NREG ≤ r → exec (.mod l r) ⟨p, c⟩ = .next ⟨p, c.recorded (.error .outOfBoundsRegister (BitVec.ofNat p.W r)) none (some c.pc)⟩) ∧
      (p.NREG ≤ l → exec (.mod l r) ⟨p, c⟩ = .next ⟨p, c.recorded (.error .outOfBoundsRegister (BitVec.ofNat p.W l)) none (some c.pc)⟩)

/-- `modc` (41_arithmetic.md rule R126): its opcode, its effect with the whole next state, and each of its errors. -/
def Obligations.ModcWritesTheRemainder : Prop :=
  ∀ (p : Params) (c : CoreState p) (l r : Nat), p.Valid → (Instr.modc l r).WellFormed p.W →
    (encode p.W (.modc l r)).extractLsb' (p.W + p.W) 8 = 5#8 ∧
      (∀ (hl : l < p.NREG), r ≠ 0 → (c.pc + 1).toNat < c.prog.length →
        exec (.modc l r) ⟨p, c⟩ = .next ⟨p, { c with regs := c.regs.set l (BitVec.ofNat p.W (c.regs[l].toNat - r * (c.regs[l].toNat / r))) hl, pc := c.pc + 1 }⟩) ∧
      (∀ (hl : l < p.NREG), r ≠ 0 → c.prog.length ≤ (c.pc + 1).toNat →
        exec (.modc l r) ⟨p, c⟩ =
          .next ⟨p, ({ c with regs := c.regs.set l (BitVec.ofNat p.W (c.regs[l].toNat - r * (c.regs[l].toNat / r))) hl, pc := c.pc + 1 } : CoreState p).recorded
              (.error .outOfBoundsProgramCounter (c.pc + 1)) none (some (c.pc + 1))⟩) ∧
      (∀ (hl : l < p.NREG), r = 0 →
        exec (.modc l r) ⟨p, c⟩ = .next ⟨p, c.recorded (.error .divisionByZero (0)) none (some c.pc)⟩) ∧
      (p.NREG ≤ l → exec (.modc l r) ⟨p, c⟩ = .next ⟨p, c.recorded (.error .outOfBoundsRegister (BitVec.ofNat p.W l)) none (some c.pc)⟩)

/-- `mul` (41_arithmetic.md rule R127): its opcode, its effect with the whole next state, and each of its errors. -/
def Obligations.MulWritesTheProduct : Prop :=
  ∀ (p : Params) (c : CoreState p) (l r : Nat), p.Valid → (Instr.mul l r).WellFormed p.W →
    (encode p.W (.mul l r)).extractLsb' (p.W + p.W) 8 = 6#8 ∧
      (∀ (hl : l < p.NREG) (hr : r < p.NREG), (c.pc + 1).toNat < c.prog.length →
        exec (.mul l r) ⟨p, c⟩ = .next ⟨p, { c with regs := c.regs.set l (BitVec.ofNat p.W (c.regs[l].toNat * c.regs[r].toNat)) hl, pc := c.pc + 1 }⟩) ∧
      (∀ (hl : l < p.NREG) (hr : r < p.NREG), c.prog.length ≤ (c.pc + 1).toNat →
        exec (.mul l r) ⟨p, c⟩ =
          .next ⟨p, ({ c with regs := c.regs.set l (BitVec.ofNat p.W (c.regs[l].toNat * c.regs[r].toNat)) hl, pc := c.pc + 1 } : CoreState p).recorded
              (.error .outOfBoundsProgramCounter (c.pc + 1)) none (some (c.pc + 1))⟩) ∧
      (l < p.NREG → p.NREG ≤ r → exec (.mul l r) ⟨p, c⟩ = .next ⟨p, c.recorded (.error .outOfBoundsRegister (BitVec.ofNat p.W r)) none (some c.pc)⟩) ∧
      (p.NREG ≤ l → exec (.mul l r) ⟨p, c⟩ = .next ⟨p, c.recorded (.error .outOfBoundsRegister (BitVec.ofNat p.W l)) none (some c.pc)⟩)

/-- `mulc` (41_arithmetic.md rule R128): its opcode, its effect with the whole next state, and each of its errors. -/
def Obligations.MulcWritesTheProduct : Prop :=
  ∀ (p : Params) (c : CoreState p) (l r : Nat), p.Valid → (Instr.mulc l r).WellFormed p.W →
    (encode p.W (.mulc l r)).extractLsb' (p.W + p.W) 8 = 7#8 ∧
      (∀ (hl : l < p.NREG), (c.pc + 1).toNat < c.prog.length →
        exec (.mulc l r) ⟨p, c⟩ = .next ⟨p, { c with regs := c.regs.set l (BitVec.ofNat p.W (c.regs[l].toNat * r)) hl, pc := c.pc + 1 }⟩) ∧
      (∀ (hl : l < p.NREG), c.prog.length ≤ (c.pc + 1).toNat →
        exec (.mulc l r) ⟨p, c⟩ =
          .next ⟨p, ({ c with regs := c.regs.set l (BitVec.ofNat p.W (c.regs[l].toNat * r)) hl, pc := c.pc + 1 } : CoreState p).recorded
              (.error .outOfBoundsProgramCounter (c.pc + 1)) none (some (c.pc + 1))⟩) ∧
      (p.NREG ≤ l → exec (.mulc l r) ⟨p, c⟩ = .next ⟨p, c.recorded (.error .outOfBoundsRegister (BitVec.ofNat p.W l)) none (some c.pc)⟩)

/-- `set` (42_assignment.md rule R130): its opcode, its effect with the whole next state, and each of its errors. -/
def Obligations.SetCopiesTheRegister : Prop :=
  ∀ (p : Params) (c : CoreState p) (l r : Nat), p.Valid → (Instr.set l r).WellFormed p.W →
    (encode p.W (.set l r)).extractLsb' (p.W + p.W) 8 = 8#8 ∧
      (∀ (hl : l < p.NREG) (hr : r < p.NREG), (c.pc + 1).toNat < c.prog.length →
        exec (.set l r) ⟨p, c⟩ = .next ⟨p, { c with regs := c.regs.set l (c.regs[r]) hl, pc := c.pc + 1 }⟩) ∧
      (∀ (hl : l < p.NREG) (hr : r < p.NREG), c.prog.length ≤ (c.pc + 1).toNat →
        exec (.set l r) ⟨p, c⟩ =
          .next ⟨p, ({ c with regs := c.regs.set l (c.regs[r]) hl, pc := c.pc + 1 } : CoreState p).recorded
              (.error .outOfBoundsProgramCounter (c.pc + 1)) none (some (c.pc + 1))⟩) ∧
      (l < p.NREG → p.NREG ≤ r → exec (.set l r) ⟨p, c⟩ = .next ⟨p, c.recorded (.error .outOfBoundsRegister (BitVec.ofNat p.W r)) none (some c.pc)⟩) ∧
      (p.NREG ≤ l → exec (.set l r) ⟨p, c⟩ = .next ⟨p, c.recorded (.error .outOfBoundsRegister (BitVec.ofNat p.W l)) none (some c.pc)⟩)

/-- `setc` (42_assignment.md rule R131): its opcode, its effect with the whole next state, and each of its errors. -/
def Obligations.SetcLoadsTheLiteral : Prop :=
  ∀ (p : Params) (c : CoreState p) (l r : Nat), p.Valid → (Instr.setc l r).WellFormed p.W →
    (encode p.W (.setc l r)).extractLsb' (p.W + p.W) 8 = 9#8 ∧
      (∀ (hl : l < p.NREG), (c.pc + 1).toNat < c.prog.length →
        exec (.setc l r) ⟨p, c⟩ = .next ⟨p, { c with regs := c.regs.set l (BitVec.ofNat p.W (r)) hl, pc := c.pc + 1 }⟩) ∧
      (∀ (hl : l < p.NREG), c.prog.length ≤ (c.pc + 1).toNat →
        exec (.setc l r) ⟨p, c⟩ =
          .next ⟨p, ({ c with regs := c.regs.set l (BitVec.ofNat p.W (r)) hl, pc := c.pc + 1 } : CoreState p).recorded
              (.error .outOfBoundsProgramCounter (c.pc + 1)) none (some (c.pc + 1))⟩) ∧
      (p.NREG ≤ l → exec (.setc l r) ⟨p, c⟩ = .next ⟨p, c.recorded (.error .outOfBoundsRegister (BitVec.ofNat p.W l)) none (some c.pc)⟩)

/-- `eq` (43_compare_skip_nop.md rule R135): equality falls through, inequality skips one slot; nothing but the pc changes. -/
def Obligations.EqSkipsWhenUnequal : Prop :=
  ∀ (p : Params) (c : CoreState p) (l r : Nat), p.Valid → (Instr.eq l r).WellFormed p.W →
    (encode p.W (.eq l r)).extractLsb' (p.W + p.W) 8 = 10#8 ∧
      (∀ (hl : l < p.NREG) (hr : r < p.NREG), (c.pc + (if c.regs[l] = c.regs[r] then 1 else 2)).toNat < c.prog.length →
        exec (.eq l r) ⟨p, c⟩ = .next ⟨p, { c with pc := c.pc + (if c.regs[l] = c.regs[r] then 1 else 2) }⟩) ∧
      (∀ (hl : l < p.NREG) (hr : r < p.NREG), c.prog.length ≤ (c.pc + (if c.regs[l] = c.regs[r] then 1 else 2)).toNat →
        exec (.eq l r) ⟨p, c⟩ =
          .next ⟨p, ({ c with pc := c.pc + (if c.regs[l] = c.regs[r] then 1 else 2) } : CoreState p).recorded
              (.error .outOfBoundsProgramCounter (c.pc + (if c.regs[l] = c.regs[r] then 1 else 2))) none
              (some (c.pc + (if c.regs[l] = c.regs[r] then 1 else 2)))⟩) ∧
      (l < p.NREG → p.NREG ≤ r → exec (.eq l r) ⟨p, c⟩ = .next ⟨p, c.recorded (.error .outOfBoundsRegister (BitVec.ofNat p.W r)) none (some c.pc)⟩) ∧
      (p.NREG ≤ l → exec (.eq l r) ⟨p, c⟩ = .next ⟨p, c.recorded (.error .outOfBoundsRegister (BitVec.ofNat p.W l)) none (some c.pc)⟩)

/-- `eqc` (43_compare_skip_nop.md rule R136). -/
def Obligations.EqcSkipsWhenUnequal : Prop :=
  ∀ (p : Params) (c : CoreState p) (l r : Nat), p.Valid → (Instr.eqc l r).WellFormed p.W →
    (encode p.W (.eqc l r)).extractLsb' (p.W + p.W) 8 = 11#8 ∧
      (∀ (hl : l < p.NREG), (c.pc + (if c.regs[l] = BitVec.ofNat p.W r then 1 else 2)).toNat < c.prog.length →
        exec (.eqc l r) ⟨p, c⟩ = .next ⟨p, { c with pc := c.pc + (if c.regs[l] = BitVec.ofNat p.W r then 1 else 2) }⟩) ∧
      (∀ (hl : l < p.NREG), c.prog.length ≤ (c.pc + (if c.regs[l] = BitVec.ofNat p.W r then 1 else 2)).toNat →
        exec (.eqc l r) ⟨p, c⟩ =
          .next ⟨p, ({ c with pc := c.pc + (if c.regs[l] = BitVec.ofNat p.W r then 1 else 2) } : CoreState p).recorded
              (.error .outOfBoundsProgramCounter (c.pc + (if c.regs[l] = BitVec.ofNat p.W r then 1 else 2))) none
              (some (c.pc + (if c.regs[l] = BitVec.ofNat p.W r then 1 else 2)))⟩) ∧
      (p.NREG ≤ l → exec (.eqc l r) ⟨p, c⟩ = .next ⟨p, c.recorded (.error .outOfBoundsRegister (BitVec.ofNat p.W l)) none (some c.pc)⟩)

/-- `nop` (43_compare_skip_nop.md rule R137), its counting as one executed instruction included. -/
def Obligations.NopOnlyAdvances : Prop :=
  ∀ (p : Params) (c : CoreState p) (l r : Nat), p.Valid →
    (encode p.W (.nop l r)).extractLsb' (p.W + p.W) 8 = 12#8 ∧
      ((c.pc + 1).toNat < c.prog.length → exec (.nop l r) ⟨p, c⟩ = .next ⟨p, { c with pc := c.pc + 1 }⟩) ∧
      (c.prog.length ≤ (c.pc + 1).toNat →
        exec (.nop l r) ⟨p, c⟩ =
          .next ⟨p, ({ c with pc := c.pc + 1 } : CoreState p).recorded
              (.error .outOfBoundsProgramCounter (c.pc + 1)) none (some (c.pc + 1))⟩) ∧
      (∀ w, c.rst = false → c.status = .running → p.STEP_BUDGET ≠ some c.steps → c.prog[c.pc.toNat]? = some w →
        decode w = .instr (.nop l r) → (c.pc + 1).toNat < c.prog.length →
          step ⟨p, c⟩ = .next ⟨p, { c with pc := c.pc + 1, steps := c.steps + 1 }⟩)

/-- `print` (44_print.md rule R141); `stringAt` is pinned by StringAtEndsAtTheFirstNul. -/
def Obligations.PrintAppendsTheString : Prop :=
  ∀ (p : Params) (c : CoreState p) (l r : Nat), p.Valid → (Instr.print l r).WellFormed p.W →
    (encode p.W (.print l r)).extractLsb' (p.W + p.W) 8 = 13#8 ∧
      (∀ (hr : r < p.NREG) (bytes : List Byte), c.strmem.stringAt (c.regs[r]) = some bytes → (c.pc + 1).toNat < c.prog.length →
        exec (.print l r) ⟨p, c⟩ = .next ⟨p, { c with out := c.out ++ bytes, pc := c.pc + 1 }⟩) ∧
      (∀ (hr : r < p.NREG) (bytes : List Byte), c.strmem.stringAt (c.regs[r]) = some bytes → c.prog.length ≤ (c.pc + 1).toNat →
        exec (.print l r) ⟨p, c⟩ =
          .next ⟨p, ({ c with out := c.out ++ bytes, pc := c.pc + 1 } : CoreState p).recorded
              (.error .outOfBoundsProgramCounter (c.pc + 1)) none (some (c.pc + 1))⟩) ∧
      (∀ (hr : r < p.NREG), c.strmem.stringAt (c.regs[r]) = none →
        exec (.print l r) ⟨p, c⟩ = .next ⟨p, c.recorded (.printFault (c.regs[r])) none (some c.pc)⟩) ∧
      (p.NREG ≤ r → exec (.print l r) ⟨p, c⟩ = .next ⟨p, c.recorded (.error .outOfBoundsRegister (BitVec.ofNat p.W r)) none (some c.pc)⟩)

/-- `printc` (44_print.md rule R142). -/
def Obligations.PrintcAppendsTheString : Prop :=
  ∀ (p : Params) (c : CoreState p) (l r : Nat), p.Valid → (Instr.printc l r).WellFormed p.W →
    (encode p.W (.printc l r)).extractLsb' (p.W + p.W) 8 = 14#8 ∧
      (∀ (bytes : List Byte), c.strmem.stringAt (BitVec.ofNat p.W r) = some bytes → (c.pc + 1).toNat < c.prog.length →
        exec (.printc l r) ⟨p, c⟩ = .next ⟨p, { c with out := c.out ++ bytes, pc := c.pc + 1 }⟩) ∧
      (∀ (bytes : List Byte), c.strmem.stringAt (BitVec.ofNat p.W r) = some bytes → c.prog.length ≤ (c.pc + 1).toNat →
        exec (.printc l r) ⟨p, c⟩ =
          .next ⟨p, ({ c with out := c.out ++ bytes, pc := c.pc + 1 } : CoreState p).recorded
              (.error .outOfBoundsProgramCounter (c.pc + 1)) none (some (c.pc + 1))⟩) ∧
      (c.strmem.stringAt (BitVec.ofNat p.W r) = none →
        exec (.printc l r) ⟨p, c⟩ = .next ⟨p, c.recorded (.printFault (BitVec.ofNat p.W r)) none (some c.pc)⟩)

/-- `jmp` (45_jump.md rule R151). -/
def Obligations.JmpMovesByTheRegister : Prop :=
  ∀ (p : Params) (c : CoreState p) (l r : Nat), p.Valid → (Instr.jmp l r).WellFormed p.W →
    (encode p.W (.jmp l r)).extractLsb' (p.W + p.W) 8 = 15#8 ∧
      (∀ (hr : r < p.NREG), (c.pc + (if (c.regs[r]).getLsbD (p.W - 1) then c.regs[r] else c.regs[r] + 1)).toNat < c.prog.length →
        exec (.jmp l r) ⟨p, c⟩ =
          .next ⟨p, { c with pc := c.pc + (if (c.regs[r]).getLsbD (p.W - 1) then c.regs[r] else c.regs[r] + 1) }⟩) ∧
      (∀ (hr : r < p.NREG), c.prog.length ≤ (c.pc + (if (c.regs[r]).getLsbD (p.W - 1) then c.regs[r] else c.regs[r] + 1)).toNat →
        exec (.jmp l r) ⟨p, c⟩ =
          .next ⟨p, ({ c with pc := c.pc + (if (c.regs[r]).getLsbD (p.W - 1) then c.regs[r] else c.regs[r] + 1) } : CoreState p).recorded
              (.error .outOfBoundsProgramCounter (c.pc + (if (c.regs[r]).getLsbD (p.W - 1) then c.regs[r] else c.regs[r] + 1))) none
              (some (c.pc + (if (c.regs[r]).getLsbD (p.W - 1) then c.regs[r] else c.regs[r] + 1)))⟩) ∧
      (∀ (hr : r < p.NREG), c.regs[r] = 0 → c.pc + (if (c.regs[r]).getLsbD (p.W - 1) then c.regs[r] else c.regs[r] + 1) = c.pc + 1) ∧
      (p.NREG ≤ r → exec (.jmp l r) ⟨p, c⟩ = .next ⟨p, c.recorded (.error .outOfBoundsRegister (BitVec.ofNat p.W r)) none (some c.pc)⟩)

/-- `jmpc` (45_jump.md rule R152), its corner cases included. -/
def Obligations.JmpcMovesByTheLiteral : Prop :=
  ∀ (p : Params) (c : CoreState p) (l r : Nat), p.Valid → (Instr.jmpc l r).WellFormed p.W →
    (encode p.W (.jmpc l r)).extractLsb' (p.W + p.W) 8 = 16#8 ∧
      ((c.pc + (if (BitVec.ofNat p.W r).getLsbD (p.W - 1) then BitVec.ofNat p.W r else BitVec.ofNat p.W r + 1)).toNat < c.prog.length →
        exec (.jmpc l r) ⟨p, c⟩ =
          .next ⟨p, { c with pc := c.pc + (if (BitVec.ofNat p.W r).getLsbD (p.W - 1) then BitVec.ofNat p.W r else BitVec.ofNat p.W r + 1) }⟩) ∧
      (c.prog.length ≤ (c.pc + (if (BitVec.ofNat p.W r).getLsbD (p.W - 1) then BitVec.ofNat p.W r else BitVec.ofNat p.W r + 1)).toNat →
        exec (.jmpc l r) ⟨p, c⟩ =
          .next ⟨p, ({ c with pc := c.pc + (if (BitVec.ofNat p.W r).getLsbD (p.W - 1) then BitVec.ofNat p.W r else BitVec.ofNat p.W r + 1) } : CoreState p).recorded
              (.error .outOfBoundsProgramCounter (c.pc + (if (BitVec.ofNat p.W r).getLsbD (p.W - 1) then BitVec.ofNat p.W r else BitVec.ofNat p.W r + 1))) none
              (some (c.pc + (if (BitVec.ofNat p.W r).getLsbD (p.W - 1) then BitVec.ofNat p.W r else BitVec.ofNat p.W r + 1)))⟩) ∧
      (r = 0 → c.pc + (if (BitVec.ofNat p.W r).getLsbD (p.W - 1) then BitVec.ofNat p.W r else BitVec.ofNat p.W r + 1) = c.pc + 1) ∧
      (c.prog.length ≤ p.PROG_CAP → (BitVec.ofNat p.W r).getLsbD (p.W - 1) = true → c.pc = 0 →
        c.prog.length ≤ (c.pc + (if (BitVec.ofNat p.W r).getLsbD (p.W - 1) then BitVec.ofNat p.W r else BitVec.ofNat p.W r + 1)).toNat) ∧
      (c.prog.length = 1 → c.pc = 0 → 1 ≤ (c.pc + (if (BitVec.ofNat p.W r).getLsbD (p.W - 1) then BitVec.ofNat p.W r else BitVec.ofNat p.W r + 1)).toNat)

/-- `ret` (46_halt.md rule R156). The last clause is that rule's sentence "if the host first sets `x[0] <- v`, the same default program returns `v`",
which the spec marks as derived from R155, R23 and R36; that Run is the transaction presented and that it takes two steps is log 5,
the model's choice (DESIGN CHOICE). -/
def Obligations.RetHaltsWithTheRegister : Prop :=
  ∀ (p : Params) (c : CoreState p) (l r : Nat), p.Valid → (Instr.ret l r).WellFormed p.W →
    (encode p.W (.ret l r)).extractLsb' (p.W + p.W) 8 = 17#8 ∧
      (∀ (hr : r < p.NREG),
        exec (.ret l r) ⟨p, c⟩ = .next ⟨p, c.recorded (.halted c.regs[r]) (some c.regs[r]) none⟩) ∧
      (p.NREG ≤ r → exec (.ret l r) ⟨p, c⟩ = .next ⟨p, c.recorded (.error .outOfBoundsRegister (BitVec.ofNat p.W r)) none (some c.pc)⟩) ∧
      (∀ (h0 : 0 < p.NREG) (v : Word p.W), p.STEP_BUDGET ≠ some 0 →
        ∃ c' : CoreState p,
          Host.Core.run Sys2Proof.core 2
              ⟨p, { CoreState.initial p with regs := (CoreState.initial p).regs.set 0 v h0, inbox := [.run] }⟩ = .next ⟨p, c'⟩ ∧
            c'.outcome = some (.halted v) ∧ c'.result = some v ∧ (CoreState.initial p).regs[0] = 0)

/-- `retc` (46_halt.md rule R157): no case but the halt. -/
def Obligations.RetcHaltsWithTheLiteral : Prop :=
  ∀ (p : Params) (c : CoreState p) (l r : Nat), (Instr.retc l r).WellFormed p.W →
    (encode p.W (.retc l r)).extractLsb' (p.W + p.W) 8 = 18#8 ∧
      exec (.retc l r) ⟨p, c⟩ =
        .next ⟨p, c.recorded (.halted (BitVec.ofNat p.W r)) (some (BitVec.ofNat p.W r)) none⟩

/-- The string read of 44_print.md section 1 (the spec's decision, 92_eei_decisions.md D14), by the least `k` of its definition. -/
def Obligations.StringAtEndsAtTheFirstNul : Prop :=
  ∀ (W : Nat) (m : Memory) (a : Word W),
    let found (k : Nat) : Prop :=
      a.toNat + k ≤ 2 ^ W - 1 ∧ (∀ n ≤ k, (m.read (a.toNat + n)).isSome) ∧ m.read (a.toNat + k) = some 0
    (∀ bytes, m.stringAt a = some bytes ↔
        found bytes.length ∧ (∀ k, found k → bytes.length ≤ k) ∧
          ∀ n (h : n < bytes.length), m.read (a.toNat + n) = some bytes[n]) ∧
      (m.stringAt a = none ↔ ¬ ∃ k, found k)

/-- The two readings of the pc update (40_dispatch_and_sequencer.md section 2, marked by the spec as derived; 90_conflicts.md C2). -/
def Obligations.PcUpdateReadingsAgree : Prop :=
  ∀ (p : Params) (c : CoreState p) (d : Word p.W), p.Valid → c.prog.length ≤ p.PROG_CAP →
    c.pc.toNat < c.prog.length →
      let n : Int := if 0 ≤ signed d then signed d + 1 else signed d
      ((c.pc + jumpOffset d).toNat < c.prog.length ↔ 0 ≤ (c.pc.toNat : Int) + n ∧ (c.pc.toNat : Int) + n < c.prog.length) ∧
        ((c.pc + jumpOffset d).toNat < c.prog.length → ((c.pc + jumpOffset d).toNat : Int) = (c.pc.toNat : Int) + n) ∧
        ((c.pc.toNat : Int) + n < 0 → ((c.pc + jumpOffset d).toNat : Int) = (c.pc.toNat : Int) + n + 2 ^ p.W)

/-- Properties of the jump offset (45_jump.md section 1, marked by the spec as derived; 90_conflicts.md C5). -/
def Obligations.JumpsNeverHaltOrStay : Prop :=
  (∀ (W : Nat) (d a : Word W), 8 ≤ W →
      jumpOffset d ≠ 0 ∧ a + jumpOffset d ≠ a ∧
        (0 ≤ signed d → 1 ≤ (jumpOffset d).toNat ∧ (jumpOffset d).toNat ≤ 2 ^ (W - 1)) ∧
        (signed d < 0 → 2 ^ (W - 1) ≤ (jumpOffset d).toNat)) ∧
    ∀ W : Nat, 8 ≤ W →
      jumpOffset (BitVec.ofNat W (2 ^ (W - 1) - 1)) = jumpOffset (BitVec.ofNat W (2 ^ (W - 1)))

/-- The halt classifier's third case is dead (40_dispatch_and_sequencer.md section 3, marked by the spec as derived). -/
def Obligations.UnexpectedHaltIsUnreachable : Prop :=
  ∀ (p : Params) (c c' : CoreState p) (i : Instr), p.Valid →
    (∀ info, c.outcome ≠ some (.error .unexpectedHaltOpcode info)) → exec i ⟨p, c⟩ = .next ⟨p, c'⟩ →
      ∀ info, c'.outcome ≠ some (.error .unexpectedHaltOpcode info)

/-- The summary table of 60_exceptions.md section 6 (marked by the spec as derived), column by column (`canEndBy`, `EndsBy`), both ways: an
instruction ends a run only for a cause that its row admits, and for each of those on some legal machine. -/
def Obligations.OpcodesRaiseWhatTheTableSays : Prop :=
  (∀ (p : Params) (c c' : CoreState p) (i : Instr) (o : RunOutcome p.W), p.Valid → c.status = .running →
      exec i ⟨p, c⟩ = .next ⟨p, c'⟩ → c'.status = .ended → c'.outcome = some o →
        ∃ cause, canEndBy (opcodeNumber i) cause = true ∧ EndsBy p i cause o) ∧
    ∀ n ≤ 18, ∀ cause, canEndBy n cause = true →
      ∃ (p : Params) (c c' : CoreState p) (i : Instr) (o : RunOutcome p.W),
        opcodeNumber i = n ∧ i.WellFormed p.W ∧ State.Inv ⟨p, c⟩ ∧ c.status = .running ∧
          exec i ⟨p, c⟩ = .next ⟨p, c'⟩ ∧ c'.status = .ended ∧ c'.outcome = some o ∧ EndsBy p i cause o

/-- The frame of all 19 instructions at once (10_state.md sections 1 and 5, 20_memory.md sections 1 and 3). -/
def Obligations.InstructionFrame : Prop :=
  ∀ (p : Params) (c : CoreState p) (i : Instr), p.Valid →
    ∃ c' : CoreState p, exec i ⟨p, c⟩ = .next ⟨p, c'⟩ ∧
      (∀ n (h : n < p.NREG), (n ≠ i.lhs % 2 ^ p.W ∨ 10 ≤ opcodeNumber i) → c'.regs[n] = c.regs[n]) ∧
      (∃ bytes, c'.out = c.out ++ bytes ∧ (opcodeNumber i ∉ [13, 14] → bytes = [])) ∧
      c'.prog = c.prog ∧ c'.steps = c.steps ∧ (∀ a, c'.strmem.read a = c.strmem.read a) ∧ c'.rst = c.rst ∧
      c'.inbox = c.inbox ∧
      (c'.status ≠ .ended → c'.status = c.status ∧ c'.outcome = c.outcome ∧ c'.result = c.result ∧
        c'.faultPc = c.faultPc ∧ c'.response = c.response)

/-- Precision (60_exceptions.md section 3; the spec's decision, 92_eei_decisions.md D11). That the instruction behind an
OutOfBoundsProgramCounter has completed in full is said by the program in which its landing slot exists: there it completes, with the same
registers and the same output. -/
def Obligations.ErrorsArePrecise : Prop :=
  ∀ (p : Params) (c c' : CoreState p) (i : Instr) (o : RunOutcome p.W), p.Valid → c.status = .running →
    exec i ⟨p, c⟩ = .next ⟨p, c'⟩ → c'.status = .ended → c'.outcome = some o →
      match o with
      | .error .outOfBoundsProgramCounter info =>
        c.prog.length ≤ info.toNat ∧
          c' = ({ c with regs := c'.regs, out := c'.out, pc := info } : CoreState p).recorded
              (.error .outOfBoundsProgramCounter info) none (some info) ∧
          ∀ ws : List (InstrWord p.W), info.toNat < ws.length →
            exec i ⟨p, { c with prog := ws }⟩ =
              .next ⟨p, { c with prog := ws, regs := c'.regs, out := c'.out, pc := info }⟩
      | .error .unexpectedHaltOpcode _ => False
      | .budgetExhausted => False
      | .halted v => c' = c.recorded (.halted v) (some v) none
      | o => c' = c.recorded o none (some c.pc)

/-- The register access contract (10_state.md rule R21), for instructions and for the host. -/
def Obligations.RegisterFileContract : Prop :=
  ∀ (p : Params) (c : CoreState p), p.Valid →
    (∀ i : Word p.W, (CoreState.initial p).x i = 0) ∧
      (∀ i v j : Word p.W, i.toNat < p.NREG → (c.setX i v).x j = if j = i then v else c.x j) ∧
      (∀ i v : Word p.W, p.NREG ≤ i.toNat →
        c.perform (.regGet i) = { c with response := some (.error .outOfBoundsRegister i) } ∧
          c.perform (.regSet i v) = { c with response := some (.error .outOfBoundsRegister i) }) ∧
      (∀ i : Instr, i.WellFormed p.W → usesLhs (opcodeNumber i) = true → p.NREG ≤ i.lhs →
        exec i ⟨p, c⟩ = .next ⟨p, c.recorded (.error .outOfBoundsRegister (BitVec.ofNat p.W i.lhs)) none (some c.pc)⟩) ∧
      (∀ i : Instr, i.WellFormed p.W → isRegisterForm (opcodeNumber i) = true → p.NREG ≤ i.rhs →
        (usesLhs (opcodeNumber i) = true → i.lhs < p.NREG) →
          exec i ⟨p, c⟩ = .next ⟨p, c.recorded (.error .outOfBoundsRegister (BitVec.ofNat p.W i.rhs)) none (some c.pc)⟩)

/-- A step runs the decoded instruction, counting it (40_dispatch_and_sequencer.md section 1). -/
def Obligations.StepRunsTheDecodedInstruction : Prop :=
  ∀ (p : Params) (c : CoreState p) (w : InstrWord p.W) (i : Instr), c.rst = false → c.status = .running →
    p.STEP_BUDGET ≠ some c.steps → c.prog[c.pc.toNat]? = some w → decode w = .instr i →
      i.WellFormed p.W ∧ step ⟨p, c⟩ = exec i ⟨p, { c with steps := c.steps + 1 }⟩

/-- The placing of an instruction for the next step: the model's own means (DESIGN CHOICE, log 9). -/
def Obligations.PlacedWordRunsFirst : Prop :=
  ∀ (p : Params) (c : CoreState p) (nbits w : Nat) (i : Instr), p.STEP_BUDGET ≠ some 0 →
    decode (BitVec.ofNat (8 + p.W + p.W) (w % 2 ^ nbits)) = .instr i →
      ∃ c' : CoreState p, c'.pc = 0 ∧ c'.status = .running ∧ c'.steps = 1 ∧ c'.regs = c.regs ∧
        c'.prog[0]? = some (BitVec.ofNat (8 + p.W + p.W) (w % 2 ^ nbits)) ∧
        step (State.withFetchWord ⟨p, c⟩ nbits w) = exec i ⟨p, c'⟩

/-- The step budget (40_dispatch_and_sequencer.md section 4; the spec's decision, 92_eei_decisions.md D13). -/
def Obligations.SpentBudgetEndsTheRun : Prop :=
  ∀ (p : Params) (c : CoreState p), c.rst = false → c.status = .running → p.STEP_BUDGET = some c.steps →
    step ⟨p, c⟩ = .next ⟨p, c.recorded .budgetExhausted none (some c.pc)⟩

/-- The invariant of Safety.lean holds after construction (10_state.md section 7); the reference parameters are log 1. -/
def Obligations.ResetStateIsLegal : Prop :=
  (∀ p : Params, p.Valid → (State.constructed p).Inv) ∧ State.reset.Inv ∧ State.reset = State.constructed Params.reference

/-- The invariant of Safety.lean is kept by every step, in every legal state (no run is assumed). Its clause `faultPcRecorded` says of every
ENDED state that fault_pc is the pc: at the end of a run that is the spec's, between runs it is the model's choice that pc keeps its value
(log 3, DESIGN CHOICE). -/
def Obligations.StepKeepsLegalStates : Prop :=
  ∀ s t : State, s.Inv → step s = .next t → t.Inv ∧ t.params = s.params

/-- A fetch cannot fail and a RUNNING core keeps taking steps (40_dispatch_and_sequencer.md section 1, marked by the spec as derived;
70_reset_and_hazards.md section 4). That a machine that is not RUNNING has a next state, with nothing presented too, is the model's
choice (log 5), and `t.Inv` carries the clause of log 3 on the pc between runs (both DESIGN CHOICE). -/
def Obligations.LegalStatesNeverStop : Prop :=
  ∀ s : State, s.Inv → ∃ t, step s = .next t ∧ t.Inv

/-- The enforced step budget makes every run end (40_dispatch_and_sequencer.md section 4; 92_eei_decisions.md D13). Of runs that the host does
not reset in between: the line `rst` is the host's to raise and no step does (log 6, DESIGN CHOICE). -/
def Obligations.BudgetedRunsEnd : Prop :=
  ∀ (p : Params) (c : CoreState p) (n : Nat), State.Inv ⟨p, c⟩ → c.status = .running → c.rst = false →
    p.STEP_BUDGET = some n →
      ∃ (k : Nat) (c' : CoreState p), k ≤ n - c.steps + 1 ∧
        Host.Core.run Sys2Proof.core k ⟨p, c⟩ = .next ⟨p, c'⟩ ∧ c'.status = .ended ∧ c'.outcome.isSome ∧ c'.steps ≤ n

/-- Instruction-fetch coherence (20_memory.md rule R59). -/
def Obligations.ProgramIsConstantDuringARun : Prop :=
  (∀ (p : Params) (c c' : CoreState p) (i : Instr), exec i ⟨p, c⟩ = .next ⟨p, c'⟩ → c'.prog = c.prog) ∧
    (∀ (p : Params) (c c' : CoreState p), c.status = .running → c.rst = false → step ⟨p, c⟩ = .next ⟨p, c'⟩ →
      c'.prog = c.prog) ∧
    ∀ (p : Params) (c : CoreState p) (ws : List (InstrWord p.W)) (later : List (HostCommand p.W)),
      c.status ≠ .running → c.rst = false → c.inbox = .load ws :: later → loadRejection p ws = none →
        ∃ c' : CoreState p, step ⟨p, c⟩ = .next ⟨p, c'⟩ ∧ c'.prog = ws

/-- `out` is append-only (10_state.md section 5; the spec's decision, 92_eei_decisions.md D17). -/
def Obligations.OutputOnlyGrows : Prop :=
  ∀ (p : Params) (c c' : CoreState p), c.rst = false → step ⟨p, c⟩ = .next ⟨p, c'⟩ →
    ∃ bytes, c'.out = c.out ++ bytes ∧ (c.status ≠ .running → bytes = [])

/-- Load (47_host_operations.md section 2; the spec's decisions, 92_eei_decisions.md D7, D8). -/
def Obligations.LoadIsAllOrNothing : Prop :=
  ∀ (p : Params) (c : CoreState p) (ws : List (InstrWord p.W)) (later : List (HostCommand p.W)),
    c.status ≠ .running → c.rst = false → c.inbox = .load ws :: later →
      (ws.length = 0 →
        step ⟨p, c⟩ = .next ⟨p, { c with inbox := later, response := some (.loadRejected .empty) }⟩) ∧
      (ws.length ≠ 0 → p.PROG_CAP < ws.length →
        step ⟨p, c⟩ = .next ⟨p, { c with inbox := later, response := some (.loadRejected .tooLong) }⟩) ∧
      (ws.length ≠ 0 → ws.length ≤ p.PROG_CAP →
        ∀ (k : Nat) (hk : k < ws.length), 19 ≤ (opcodeField ws[k]).toNat →
          (∀ j (hj : j < k), (opcodeField ws[j]).toNat ≤ 18) →
            step ⟨p, c⟩ = .next ⟨p, { c with inbox := later, response := some (.loadRejected (.invalidOpcode k)) }⟩) ∧
      (ws.length ≠ 0 → ws.length ≤ p.PROG_CAP → (∀ w ∈ ws, (opcodeField w).toNat ≤ 18) →
        step ⟨p, c⟩ = .next ⟨p, { c with inbox := later, prog := ws, response := some .ok }⟩)

/-- RegGet (47_host_operations.md rule R163). -/
def Obligations.RegGetAnswersTheRegister : Prop :=
  ∀ (p : Params) (c : CoreState p) (i : Word p.W) (later : List (HostCommand p.W)),
    c.status ≠ .running → c.rst = false → c.inbox = .regGet i :: later →
      (∀ (h : i.toNat < p.NREG),
        step ⟨p, c⟩ = .next ⟨p, { c with inbox := later, response := some (.value c.regs[i.toNat]) }⟩) ∧
      (p.NREG ≤ i.toNat →
        step ⟨p, c⟩ = .next ⟨p, { c with inbox := later, response := some (.error .outOfBoundsRegister i) }⟩)

/-- RegSet (47_host_operations.md section 2; the spec's decision, 92_eei_decisions.md D24). -/
def Obligations.RegSetWritesTheRegister : Prop :=
  ∀ (p : Params) (c : CoreState p) (i v : Word p.W) (later : List (HostCommand p.W)),
    c.status ≠ .running → c.rst = false → c.inbox = .regSet i v :: later →
      (∀ (h : i.toNat < p.NREG),
        step ⟨p, c⟩ = .next ⟨p, { c with inbox := later, regs := c.regs.set i.toNat v h, response := some .ok }⟩) ∧
      (p.NREG ≤ i.toNat →
        step ⟨p, c⟩ = .next ⟨p, { c with inbox := later, response := some (.error .outOfBoundsRegister i) }⟩)

/-- Run (47_host_operations.md section 2; 92_eei_decisions.md D17, D27). The response is none until the run ends (log 7). -/
def Obligations.RunStartsAtSlotZero : Prop :=
  ∀ (p : Params) (c : CoreState p) (later : List (HostCommand p.W)),
    c.status ≠ .running → c.rst = false → c.inbox = .run :: later →
      step ⟨p, c⟩ =
        .next ⟨p, { c with
          inbox := later, pc := 0, steps := 0, status := .running, outcome := none, result := none, faultPc := none,
          response := none }⟩

/-- Construct (10_state.md section 7; the spec's decision, 92_eei_decisions.md D23). That STRMEM and the presented transactions stay is log 6, that
`pc` holds 0 is log 3: the model's choices. -/
def Obligations.ResetActsAtAnyTime : Prop :=
  ∀ (p : Params) (c : CoreState p), c.rst = true →
    step ⟨p, c⟩ =
      .next ⟨p,
        { regs := Vector.replicate p.NREG 0, pc := 0, prog := [encode p.W (.ret 0 0)], status := .idle, outcome := none,
          result := none, faultPc := none, out := [], steps := 0, strmem := c.strmem, rst := false, inbox := c.inbox,
          response := none }⟩

/-- When the host may act (47_host_operations.md section 1; the spec's decision, 92_eei_decisions.md D15). That STRMEM is the same after the
step rests on log 8 (DESIGN CHOICE): the model gives the host no move that would break the duty of 47_host_operations.md rule R168. -/
def Obligations.TransactionsWaitWhileRunning : Prop :=
  (∀ (p : Params) (c c' : CoreState p), c.status = .running → c.rst = false → step ⟨p, c⟩ = .next ⟨p, c'⟩ →
      c'.inbox = c.inbox ∧ ∀ a, c'.strmem.read a = c.strmem.read a) ∧
    ∀ (p : Params) (c c' : CoreState p) (presented : List (HostCommand p.W)), c.status = .running → c.rst = false →
      step ⟨p, c⟩ = .next ⟨p, c'⟩ → step ⟨p, { c with inbox := presented }⟩ = .next ⟨p, { c' with inbox := presented }⟩

/-- Between runs pc and steps are not observable (10_state.md section 2; 47_host_operations.md section 3; 92_eei_decisions.md D16). -/
def Obligations.HostCannotSeeThePc : Prop :=
  ∀ (p : Params) (c c' : CoreState p) (pc : Word p.W) (steps : Nat), c.status ≠ .running → step ⟨p, c⟩ = .next ⟨p, c'⟩ →
    ∃ d' : CoreState p, step ⟨p, { c with pc := pc, steps := steps }⟩ = .next ⟨p, d'⟩ ∧
      d' = { c' with pc := d'.pc, steps := d'.steps } ∧ d'.hostView = c'.hostView ∧ (c'.status = .running → d' = c')

/-- An idle machine waits (00_scope.md section 3); that waiting is a step is the model's choice, log 5. -/
def Obligations.IdleMachineStays : Prop :=
  ∀ (p : Params) (c : CoreState p), c.status ≠ .running → c.rst = false → c.inbox = [] → step ⟨p, c⟩ = .next ⟨p, c⟩

/-- Assembler and disassembler agree (30_encoding.md section 5; the spec's decisions, 92_eei_decisions.md D20, D25). -/
def Obligations.DisassemblyAssemblesBack : Prop :=
  (∀ (W : Nat) (i : Instr) (labels : List (String × Nat)) (j : Nat), 8 ≤ W → i.WellFormed W →
      (disassemble W i).assemble W labels j = clearUnused i) ∧
    (∀ (W : Nat) (i j : Instr), 8 ≤ W → i.WellFormed W → j.WellFormed W → disassemble W i = disassemble W j →
      clearUnused i = clearUnused j) ∧
    ∀ (W : Nat) (i j : Instr), clearUnused i = clearUnused j →
      disassemble W i = disassemble W j ∧ disassembleText W i = disassembleText W j

/-- A label used as the operand of `jmpc` (30_encoding.md section 5; 45_jump.md section 1). -/
def Obligations.LabelJumpsLandOnTheLabel : Prop :=
  ∀ (p : Params) (c : CoreState p) (name : String) (t : Nat) (labels : List (String × Nat)), p.Valid →
    c.prog.length ≤ p.PROG_CAP → c.pc.toNat < c.prog.length → t < c.prog.length → labels.lookup name = some t →
      (t ≠ c.pc.toNat →
        ∃ i, AsmInstr.assemble p.W labels c.pc.toNat ⟨"jmpc", [.label name]⟩ = some i ∧
          exec i ⟨p, c⟩ = .next ⟨p, { c with pc := BitVec.ofNat p.W t }⟩) ∧
      (t = c.pc.toNat → AsmInstr.assemble p.W labels c.pc.toNat ⟨"jmpc", [.label name]⟩ = none)

/-- The host's supplying of STRMEM, the one transaction that changes it: the model's own form of 20_memory.md rule R53's "that the host
supplies" (log 8, DESIGN CHOICE). -/
def Obligations.SuppliedStringsAreReadBack : Prop :=
  ∀ (p : Params) (c : CoreState p) (cells : List (Word p.W × Byte)) (later : List (HostCommand p.W)),
    c.status ≠ .running → c.rst = false → c.inbox = .supplyStrmem cells :: later →
      ∃ m : Memory,
        step ⟨p, c⟩ = .next ⟨p, { c with inbox := later, strmem := m, response := some .ok }⟩ ∧ m.wf ∧ m.within p.W ∧
          ∀ a : Nat,
            (∀ (n : Nat) (h : n < cells.length), cells[n].1.toNat = a →
                (∀ (k : Nat) (hk : k < cells.length), n < k → cells[k].1.toNat ≠ a) → m.read a = some cells[n].2) ∧
              ((∀ cell ∈ cells, cell.1.toNat ≠ a) → m.read a = none)
end

