-- ==== Sys2Proof/Laws/Decode.lean ====
section
/-! SUPPORT. The fields of an instruction word as numbers. -/

namespace Sys2Proof

theorem toNat_append_eq {m n : Nat} (x : BitVec m) (y : BitVec n) : (x ++ y).toNat = x.toNat * 2 ^ n + y.toNat := by
  rw [BitVec.toNat_append, ← Nat.shiftLeft_add_eq_or_of_lt y.isLt, Nat.shiftLeft_eq]

/-- The opcode field as a number. -/
theorem opcodeField_toNat {W : Nat} (w : InstrWord W) : (opcodeField w).toNat = (w.toNat / 2 ^ (2 * W)) % 2 ^ 8 := by
  simp [opcodeField, BitVec.extractLsb'_toNat, Nat.shiftRight_eq_div_pow, Nat.two_mul]

/-- The `lhs` field as a number. -/
theorem lhsField_toNat {W : Nat} (w : InstrWord W) : (lhsField w).toNat = (w.toNat / 2 ^ W) % 2 ^ W := by
  simp [lhsField, BitVec.extractLsb'_toNat, Nat.shiftRight_eq_div_pow]

/-- The `rhs` field as a number. -/
theorem rhsField_toNat {W : Nat} (w : InstrWord W) : (rhsField w).toNat = w.toNat % 2 ^ W := by
  simp [rhsField, BitVec.extractLsb'_toNat]

theorem opcodeNumber_le (i : Instr) : opcodeNumber i ≤ 18 := by
  cases i <;> simp [opcodeNumber]

/-- An encoding as a number. -/
theorem encode_toNat (W : Nat) (i : Instr) :
    (encode W i).toNat = opcodeNumber i * 2 ^ (2 * W) + (i.lhs % 2 ^ W) * 2 ^ W + i.rhs % 2 ^ W := by
  have h : opcodeNumber i % 2 ^ 8 = opcodeNumber i := Nat.mod_eq_of_lt (by have := opcodeNumber_le i; omega)
  simp only [encode, toNat_append_eq, BitVec.toNat_ofNat, h, Nat.two_mul, Nat.pow_add, Nat.add_mul, Nat.mul_assoc]

/-- The fields of an encoding. -/
theorem encode_fields (W : Nat) (i : Instr) :
    (opcodeField (encode W i)).toNat = opcodeNumber i ∧ (lhsField (encode W i)).toNat = i.lhs % 2 ^ W ∧
      (rhsField (encode W i)).toNat = i.rhs % 2 ^ W := by
  have hW : 0 < 2 ^ W := Nat.two_pow_pos W
  have hl : i.lhs % 2 ^ W < 2 ^ W := Nat.mod_lt _ hW
  have hr : i.rhs % 2 ^ W < 2 ^ W := Nat.mod_lt _ hW
  have hlow : (i.lhs % 2 ^ W) * 2 ^ W + i.rhs % 2 ^ W < 2 ^ W * 2 ^ W := by nlinarith
  have h2 : 2 ^ (2 * W) = 2 ^ W * 2 ^ W := by rw [Nat.two_mul, Nat.pow_add]
  have hop := opcodeNumber_le i
  have hdiv : (encode W i).toNat / 2 ^ W = opcodeNumber i * 2 ^ W + i.lhs % 2 ^ W := by
    rw [encode_toNat, h2, show opcodeNumber i * (2 ^ W * 2 ^ W) + i.lhs % 2 ^ W * 2 ^ W + i.rhs % 2 ^ W =
      i.rhs % 2 ^ W + (opcodeNumber i * 2 ^ W + i.lhs % 2 ^ W) * 2 ^ W by ring, Nat.add_mul_div_right _ _ hW,
      Nat.div_eq_of_lt hr, Nat.zero_add]
  have hdiv2 : (encode W i).toNat / 2 ^ (2 * W) = opcodeNumber i := by
    rw [h2, ← Nat.div_div_eq_div_mul, hdiv, Nat.add_comm, Nat.add_mul_div_right _ _ hW, Nat.div_eq_of_lt hl, Nat.zero_add]
  refine ⟨?_, ?_, ?_⟩
  · rw [opcodeField_toNat, hdiv2]
    exact Nat.mod_eq_of_lt (by omega)
  · rw [lhsField_toNat, hdiv, Nat.add_comm, Nat.add_mul_mod_self_right, Nat.mod_eq_of_lt hl]
  · rw [rhsField_toNat, encode_toNat, h2, show opcodeNumber i * (2 ^ W * 2 ^ W) + i.lhs % 2 ^ W * 2 ^ W + i.rhs % 2 ^ W =
      i.rhs % 2 ^ W + (opcodeNumber i * 2 ^ W + i.lhs % 2 ^ W) * 2 ^ W by ring, Nat.add_mul_mod_self_right, Nat.mod_eq_of_lt hr]

/-- An instruction is the table's instruction of its own number and fields. -/
theorem instrOfOpcode_self (i : Instr) : instrOfOpcode (opcodeNumber i) i.lhs i.rhs = some i := by
  cases i <;> rfl

/-- What the table answers for a number: an instruction of that number with those fields, or nothing from 19 up. -/
theorem instrOfOpcode_cases (n l r : Nat) :
    (∃ i, instrOfOpcode n l r = some i ∧ opcodeNumber i = n ∧ i.lhs = l ∧ i.rhs = r ∧ n ≤ 18) ∨
      (instrOfOpcode n l r = none ∧ 19 ≤ n) := by
  by_cases hn : n ≤ 18
  · exact .inl (by interval_cases n <;> exact ⟨_, rfl, rfl, rfl, rfl, by omega⟩)
  · refine .inr ⟨?_, by omega⟩
    unfold instrOfOpcode
    split <;> first | omega | rfl

/-- What the decoder answers. -/
theorem decode_cases {W : Nat} (w : InstrWord W) :
    (∃ i, decode w = .instr i ∧ opcodeNumber i = (opcodeField w).toNat ∧ i.lhs = (lhsField w).toNat ∧
        i.rhs = (rhsField w).toNat ∧ (opcodeField w).toNat ≤ 18) ∨
      (decode w = .rejected (.invalidOpcode (opcodeField w).toNat) ∧ 19 ≤ (opcodeField w).toNat) := by
  rcases instrOfOpcode_cases (opcodeField w).toNat (lhsField w).toNat (rhsField w).toNat with ⟨i, h, hs⟩ | ⟨h, hn⟩
  · exact .inl ⟨i, by simp only [decode, h], hs⟩
  · exact .inr ⟨by simp only [decode, h], hn⟩

end Sys2Proof
end

