-- ==== Sys2Proof/Laws/State.lean ====
section
/-! SUPPORT. Every field after every state update: the project's simp set for `CoreState`, so that no proof unfolds a record update. -/

namespace Sys2Proof.Machine

variable {p : Params} (c : CoreState p)

section setX
variable (i v : Word p.W)

@[simp] theorem CoreState.setX_regs : (c.setX i v).regs = c.regs.setIfInBounds i.toNat v := rfl
@[simp] theorem CoreState.setX_pc : (c.setX i v).pc = c.pc := rfl
@[simp] theorem CoreState.setX_prog : (c.setX i v).prog = c.prog := rfl
@[simp] theorem CoreState.setX_status : (c.setX i v).status = c.status := rfl
@[simp] theorem CoreState.setX_outcome : (c.setX i v).outcome = c.outcome := rfl
@[simp] theorem CoreState.setX_result : (c.setX i v).result = c.result := rfl
@[simp] theorem CoreState.setX_faultPc : (c.setX i v).faultPc = c.faultPc := rfl
@[simp] theorem CoreState.setX_out : (c.setX i v).out = c.out := rfl
@[simp] theorem CoreState.setX_steps : (c.setX i v).steps = c.steps := rfl
@[simp] theorem CoreState.setX_strmem : (c.setX i v).strmem = c.strmem := rfl
@[simp] theorem CoreState.setX_rst : (c.setX i v).rst = c.rst := rfl
@[simp] theorem CoreState.setX_inbox : (c.setX i v).inbox = c.inbox := rfl
@[simp] theorem CoreState.setX_response : (c.setX i v).response = c.response := rfl

end setX

section append
variable (bytes : List Byte)

@[simp] theorem CoreState.append_regs : (c.append bytes).regs = c.regs := rfl
@[simp] theorem CoreState.append_pc : (c.append bytes).pc = c.pc := rfl
@[simp] theorem CoreState.append_prog : (c.append bytes).prog = c.prog := rfl
@[simp] theorem CoreState.append_status : (c.append bytes).status = c.status := rfl
@[simp] theorem CoreState.append_outcome : (c.append bytes).outcome = c.outcome := rfl
@[simp] theorem CoreState.append_result : (c.append bytes).result = c.result := rfl
@[simp] theorem CoreState.append_faultPc : (c.append bytes).faultPc = c.faultPc := rfl
@[simp] theorem CoreState.append_out : (c.append bytes).out = c.out ++ bytes := rfl
@[simp] theorem CoreState.append_steps : (c.append bytes).steps = c.steps := rfl
@[simp] theorem CoreState.append_strmem : (c.append bytes).strmem = c.strmem := rfl
@[simp] theorem CoreState.append_rst : (c.append bytes).rst = c.rst := rfl
@[simp] theorem CoreState.append_inbox : (c.append bytes).inbox = c.inbox := rfl
@[simp] theorem CoreState.append_response : (c.append bytes).response = c.response := rfl

end append

section endRun
variable (o : RunOutcome p.W)

@[simp] theorem CoreState.endRun_regs : (c.endRun o).regs = c.regs := rfl
@[simp] theorem CoreState.endRun_pc : (c.endRun o).pc = c.pc := rfl
@[simp] theorem CoreState.endRun_prog : (c.endRun o).prog = c.prog := rfl
@[simp] theorem CoreState.endRun_status : (c.endRun o).status = .ended := rfl
@[simp] theorem CoreState.endRun_outcome : (c.endRun o).outcome = some o := rfl
@[simp] theorem CoreState.endRun_result : (c.endRun o).result = o.resultWord := rfl
@[simp] theorem CoreState.endRun_faultPc : (c.endRun o).faultPc = o.faultPcWord c.pc := rfl
@[simp] theorem CoreState.endRun_out : (c.endRun o).out = c.out := rfl
@[simp] theorem CoreState.endRun_steps : (c.endRun o).steps = c.steps := rfl
@[simp] theorem CoreState.endRun_strmem : (c.endRun o).strmem = c.strmem := rfl
@[simp] theorem CoreState.endRun_rst : (c.endRun o).rst = c.rst := rfl
@[simp] theorem CoreState.endRun_inbox : (c.endRun o).inbox = c.inbox := rfl
@[simp] theorem CoreState.endRun_response : (c.endRun o).response = some (.ended o) := rfl

end endRun

section setPc
variable (t : Word p.W)

@[simp] theorem CoreState.setPc_regs : (c.setPc t).regs = c.regs := rfl
@[simp] theorem CoreState.setPc_pc : (c.setPc t).pc = t := rfl
@[simp] theorem CoreState.setPc_prog : (c.setPc t).prog = c.prog := rfl
@[simp] theorem CoreState.setPc_status : (c.setPc t).status = c.status := rfl
@[simp] theorem CoreState.setPc_outcome : (c.setPc t).outcome = c.outcome := rfl
@[simp] theorem CoreState.setPc_result : (c.setPc t).result = c.result := rfl
@[simp] theorem CoreState.setPc_faultPc : (c.setPc t).faultPc = c.faultPc := rfl
@[simp] theorem CoreState.setPc_out : (c.setPc t).out = c.out := rfl
@[simp] theorem CoreState.setPc_steps : (c.setPc t).steps = c.steps := rfl
@[simp] theorem CoreState.setPc_strmem : (c.setPc t).strmem = c.strmem := rfl
@[simp] theorem CoreState.setPc_rst : (c.setPc t).rst = c.rst := rfl
@[simp] theorem CoreState.setPc_inbox : (c.setPc t).inbox = c.inbox := rfl
@[simp] theorem CoreState.setPc_response : (c.setPc t).response = c.response := rfl

end setPc

section startRun

@[simp] theorem CoreState.startRun_regs : (c.startRun).regs = c.regs := rfl
@[simp] theorem CoreState.startRun_pc : (c.startRun).pc = 0 := rfl
@[simp] theorem CoreState.startRun_prog : (c.startRun).prog = c.prog := rfl
@[simp] theorem CoreState.startRun_status : (c.startRun).status = .running := rfl
@[simp] theorem CoreState.startRun_outcome : (c.startRun).outcome = none := rfl
@[simp] theorem CoreState.startRun_result : (c.startRun).result = none := rfl
@[simp] theorem CoreState.startRun_faultPc : (c.startRun).faultPc = none := rfl
@[simp] theorem CoreState.startRun_out : (c.startRun).out = c.out := rfl
@[simp] theorem CoreState.startRun_steps : (c.startRun).steps = 0 := rfl
@[simp] theorem CoreState.startRun_strmem : (c.startRun).strmem = c.strmem := rfl
@[simp] theorem CoreState.startRun_rst : (c.startRun).rst = c.rst := rfl
@[simp] theorem CoreState.startRun_inbox : (c.startRun).inbox = c.inbox := rfl
@[simp] theorem CoreState.startRun_response : (c.startRun).response = none := rfl

end startRun

section construct

@[simp] theorem CoreState.construct_regs : (c.construct).regs = Vector.replicate p.NREG 0 := rfl
@[simp] theorem CoreState.construct_pc : (c.construct).pc = 0 := rfl
@[simp] theorem CoreState.construct_prog : (c.construct).prog = [defaultWord p.W] := rfl
@[simp] theorem CoreState.construct_status : (c.construct).status = .idle := rfl
@[simp] theorem CoreState.construct_outcome : (c.construct).outcome = none := rfl
@[simp] theorem CoreState.construct_result : (c.construct).result = none := rfl
@[simp] theorem CoreState.construct_faultPc : (c.construct).faultPc = none := rfl
@[simp] theorem CoreState.construct_out : (c.construct).out = [] := rfl
@[simp] theorem CoreState.construct_steps : (c.construct).steps = 0 := rfl
@[simp] theorem CoreState.construct_strmem : (c.construct).strmem = c.strmem := rfl
@[simp] theorem CoreState.construct_rst : (c.construct).rst = false := rfl
@[simp] theorem CoreState.construct_inbox : (c.construct).inbox = c.inbox := rfl
@[simp] theorem CoreState.construct_response : (c.construct).response = none := rfl

end construct

section countStep

@[simp] theorem CoreState.countStep_regs : (c.countStep).regs = c.regs := rfl
@[simp] theorem CoreState.countStep_pc : (c.countStep).pc = c.pc := rfl
@[simp] theorem CoreState.countStep_prog : (c.countStep).prog = c.prog := rfl
@[simp] theorem CoreState.countStep_status : (c.countStep).status = c.status := rfl
@[simp] theorem CoreState.countStep_outcome : (c.countStep).outcome = c.outcome := rfl
@[simp] theorem CoreState.countStep_result : (c.countStep).result = c.result := rfl
@[simp] theorem CoreState.countStep_faultPc : (c.countStep).faultPc = c.faultPc := rfl
@[simp] theorem CoreState.countStep_out : (c.countStep).out = c.out := rfl
@[simp] theorem CoreState.countStep_steps : (c.countStep).steps = c.steps + 1 := rfl
@[simp] theorem CoreState.countStep_strmem : (c.countStep).strmem = c.strmem := rfl
@[simp] theorem CoreState.countStep_rst : (c.countStep).rst = c.rst := rfl
@[simp] theorem CoreState.countStep_inbox : (c.countStep).inbox = c.inbox := rfl
@[simp] theorem CoreState.countStep_response : (c.countStep).response = c.response := rfl

end countStep

section recorded
variable (o : RunOutcome p.W) (res fpc : Option (Word p.W))

@[simp] theorem CoreState.recorded_regs : (c.recorded o res fpc).regs = c.regs := rfl
@[simp] theorem CoreState.recorded_pc : (c.recorded o res fpc).pc = c.pc := rfl
@[simp] theorem CoreState.recorded_prog : (c.recorded o res fpc).prog = c.prog := rfl
@[simp] theorem CoreState.recorded_status : (c.recorded o res fpc).status = .ended := rfl
@[simp] theorem CoreState.recorded_outcome : (c.recorded o res fpc).outcome = some o := rfl
@[simp] theorem CoreState.recorded_result : (c.recorded o res fpc).result = res := rfl
@[simp] theorem CoreState.recorded_faultPc : (c.recorded o res fpc).faultPc = fpc := rfl
@[simp] theorem CoreState.recorded_out : (c.recorded o res fpc).out = c.out := rfl
@[simp] theorem CoreState.recorded_steps : (c.recorded o res fpc).steps = c.steps := rfl
@[simp] theorem CoreState.recorded_strmem : (c.recorded o res fpc).strmem = c.strmem := rfl
@[simp] theorem CoreState.recorded_rst : (c.recorded o res fpc).rst = c.rst := rfl
@[simp] theorem CoreState.recorded_inbox : (c.recorded o res fpc).inbox = c.inbox := rfl
@[simp] theorem CoreState.recorded_response : (c.recorded o res fpc).response = some (.ended o) := rfl

end recorded

/-- Raising an error is ending the run with it. -/
theorem CoreState.raise_eq (e : ErrorName) (info : Word p.W) : c.raise e info = c.endRun (.error e info) := rfl

/-- The end of a run is what `recorded` says, with the words of its outcome. -/
theorem CoreState.endRun_eq_recorded (o : RunOutcome p.W) :
    c.endRun o = c.recorded o o.resultWord (o.faultPcWord c.pc) := rfl

/-! The host's view: everything of R167 while no run is in progress, only status, output and response during one. -/

theorem CoreState.hostView_running (h : c.status = .running) :
    c.hostView = ⟨none, .running, none, none, none, c.out, c.response⟩ := by
  simp [CoreState.hostView, CoreState.unlessRunning, h]

theorem CoreState.hostView_stopped (h : c.status ≠ .running) :
    c.hostView = ⟨some c.regs, c.status, c.outcome, c.result, c.faultPc, c.out, c.response⟩ := by
  simp [CoreState.hostView, CoreState.unlessRunning, h]

@[simp] theorem State.reset_params : State.reset.params = Params.reference := rfl
@[simp] theorem State.reset_core : State.reset.core = CoreState.initial Params.reference := rfl

end Sys2Proof.Machine
end

