-- ==== Sys2Proof/Laws/Memory.lean ====
section
/-! SUPPORT. The string memory: read after write, and the canonical form under every memory operation. -/

namespace Sys2Proof.Machine

/-- An address that no cell lists reads as absent. -/
theorem Memory.read_eq_none_of_lt (m : Memory) (a : Nat) (h : ∀ cell ∈ m, a < cell.1) : m.read a = none := by
  induction m with
  | nil => rfl
  | cons cell rest ih =>
    obtain ⟨k, b⟩ := cell
    have hk : a < k := h (k, b) (by simp)
    have : ¬ k = a := by omega
    simp only [Memory.read, this, if_false]
    exact ih (fun cell hc => h cell (by simp [hc]))

/-- A write maps its address to its byte and leaves every other address as it was. -/
theorem Memory.read_write (m : Memory) (a : Nat) (b : Byte) (x : Nat) :
    (m.write a b).read x = if x = a then some b else m.read x := by
  induction m with
  | nil => simp only [Memory.write, Memory.read, eq_comm]
  | cons cell rest ih =>
    obtain ⟨k, v⟩ := cell
    simp only [Memory.write]
    split
    · simp only [Memory.read, eq_comm (a := a)]
    · split
      · next h =>
        subst h
        by_cases hx : x = a
        · simp [Memory.read, hx]
        · have : ¬ a = x := fun h => hx h.symm
          simp [Memory.read, hx, this]
      · next h1 h2 =>
        simp only [Memory.read, ih]
        by_cases hk : k = x
        · have : ¬ x = a := by omega
          simp [hk, this]
        · simp [hk]

/-- What a written memory lists: the new cell and cells of the old memory. -/
theorem Memory.mem_write (m : Memory) (a : Nat) (b : Byte) (cell : Host.Cell) (h : cell ∈ m.write a b) :
    cell = (a, b) ∨ cell ∈ m := by
  induction m with
  | nil => simpa [Memory.write] using h
  | cons head rest ih =>
    obtain ⟨k, v⟩ := head
    simp only [Memory.write] at h
    split at h
    · simpa using h
    · split at h
      · rcases List.mem_cons.1 h with h | h
        · exact .inl h
        · exact .inr (by simp [h])
      · rcases List.mem_cons.1 h with h | h
        · exact .inr (by simp [h])
        · rcases ih h with h | h
          · exact .inl h
          · exact .inr (by simp [h])

/-- A write keeps the canonical form. -/
theorem Memory.write_wf (m : Memory) (a : Nat) (b : Byte) (h : m.wf) : (m.write a b).wf := by
  induction m with
  | nil => simp [Memory.write, Memory.wf]
  | cons head rest ih =>
    obtain ⟨k, v⟩ := head
    have hrest : Memory.wf rest := (List.pairwise_cons.1 h).2
    have hhead : ∀ cell ∈ rest, k < cell.1 := (List.pairwise_cons.1 h).1
    simp only [Memory.write]
    split
    · next hlt =>
      refine List.pairwise_cons.2 ⟨?_, h⟩
      intro cell hc
      rcases List.mem_cons.1 hc with rfl | hc
      · exact hlt
      · exact Nat.lt_trans hlt (hhead cell hc)
    · split
      · next heq => subst heq; exact List.pairwise_cons.2 ⟨hhead, hrest⟩
      · next hlt hne =>
        refine List.pairwise_cons.2 ⟨?_, ih hrest⟩
        intro cell hc
        rcases Memory.mem_write _ _ _ _ hc with rfl | hc
        · show k < a
          omega
        · exact hhead cell hc

/-- The memory the host supplies is in canonical form. -/
theorem Memory.ofCells_wf {W : Nat} (cells : List (Word W × Byte)) : (Memory.ofCells cells).wf := by
  suffices ∀ m : Memory, m.wf → (cells.foldl (fun m cell => m.write cell.1.toNat cell.2) m).wf from
    this [] List.Pairwise.nil
  induction cells with
  | nil => exact fun m h => h
  | cons cell rest ih => exact fun m h => ih _ (Memory.write_wf m _ _ h)

/-- The memory the host supplies maps `W`-bit addresses only. -/
theorem Memory.ofCells_within {W : Nat} (cells : List (Word W × Byte)) : (Memory.ofCells cells).within W := by
  suffices ∀ m : Memory, m.within W → (cells.foldl (fun m cell => m.write cell.1.toNat cell.2) m).within W from
    this [] (by simp)
  induction cells with
  | nil => exact fun m h => h
  | cons cell rest ih =>
    intro m h
    refine ih _ (fun k hk => ?_)
    rcases Memory.mem_write _ _ _ _ hk with rfl | hk
    · exact cell.1.isLt
    · exact h k hk

/-- What the memory the host supplies maps an address to: the byte of the last cell for it, absent if there is none. -/
theorem Memory.read_ofCells {W : Nat} (cells : List (Word W × Byte)) (a : Nat) :
    (Memory.ofCells cells).read a = (cells.reverse.find? (fun cell => cell.1.toNat == a)).map Prod.snd := by
  rw [Memory.ofCells, ← List.foldr_reverse]
  induction cells.reverse with
  | nil => rfl
  | cons cell rest ih =>
    rw [List.foldr_cons, Memory.read_write, ih]
    by_cases h : a = cell.1.toNat
    · simp [h]
    · have hne : (cell.1.toNat == a) = false := beq_false_of_ne (fun e => h e.symm)
      simp [h, hne]

/-- What a scan finds: `k` bytes other than NUL at `a .. a+k-1`, a NUL at `a+k`, all within the fuel. -/
theorem Memory.scan_eq_some (m : Memory) (fuel a : Nat) (bytes : List Byte) :
    m.scan fuel a = some bytes ↔
      bytes.length < fuel ∧ m.read (a + bytes.length) = some 0 ∧
        ∀ n (h : n < bytes.length), bytes[n] ≠ 0 ∧ m.read (a + n) = some bytes[n] := by
  induction fuel generalizing a bytes with
  | zero => simp [Memory.scan]
  | succ fuel ih =>
    simp only [Memory.scan]
    cases hread : m.read a with
    | none =>
      simp only [reduceCtorEq, false_iff, not_and]
      intro _ hz hall
      cases bytes with
      | nil => simp [hread] at hz
      | cons b rest => simpa [hread] using (hall 0 (by simp)).2
    | some b =>
      by_cases hb : b = 0
      · subst hb
        simp only [if_true, Option.some.injEq]
        constructor
        · rintro rfl
          simpa using hread
        · rintro ⟨_, _, hall⟩
          cases bytes with
          | nil => rfl
          | cons b rest =>
            have := hall 0 (by simp)
            simp [hread] at this
            exact absurd this.2.symm this.1
      · simp only [hb, if_false, Option.map_eq_some_iff, ih]
        constructor
        · rintro ⟨rest, ⟨hlen, hz, hall⟩, rfl⟩
          refine ⟨by simpa using hlen, by simpa [Nat.add_assoc, Nat.add_comm 1] using hz, ?_⟩
          intro n hn
          cases n with
          | zero => exact ⟨hb, by simpa using hread⟩
          | succ n =>
            have := hall n (by simpa using hn)
            exact ⟨by simpa using this.1, by simpa [Nat.add_assoc, Nat.add_comm 1] using this.2⟩
        · rintro ⟨hlen, hz, hall⟩
          cases bytes with
          | nil => simp [hread] at hz; exact absurd hz hb
          | cons b' rest =>
            have h0 := (hall 0 (by simp)).2
            simp [hread] at h0
            subst h0
            refine ⟨rest, ⟨by simpa using hlen, by simpa [Nat.add_assoc, Nat.add_comm 1] using hz, ?_⟩, rfl⟩
            intro n hn
            have := hall (n + 1) (by simpa using hn)
            exact ⟨by simpa using this.1, by simpa [Nat.add_assoc, Nat.add_comm 1] using this.2⟩

end Sys2Proof.Machine
end

