-- ==== Sys2Proof/Laws/Ops.lean ====
section
/-! SUPPORT. What each shared operation can do, said once: register access, the sequencer, the issue of an instruction. -/

namespace Sys2Proof.Machine

variable {p : Params}

theorem CoreState.inFile_iff (c : CoreState p) (i : Word p.W) : c.inFile i = true ↔ i.toNat < p.NREG := by
  simp [CoreState.inFile]

/-- In the file, `x` is the register's content. -/
theorem CoreState.x_eq (c : CoreState p) (i : Word p.W) (h : i.toNat < p.NREG) : c.x i = c.regs[i.toNat] := by
  simp [CoreState.x, h]

/-- In the file, `setX` writes the one register. -/
theorem CoreState.setX_eq (c : CoreState p) (i v : Word p.W) (h : i.toNat < p.NREG) :
    c.setX i v = { c with regs := c.regs.set i.toNat v h } := by
  simp only [CoreState.setX]
  congr 1
  ext j hj
  simp [Vector.getElem_setIfInBounds, Vector.getElem_set]

/-- Outside the file, `setX` writes nothing. -/
theorem CoreState.setX_outside (c : CoreState p) (i v : Word p.W) (h : ¬ i.toNat < p.NREG) : c.setX i v = c := by
  have : c.regs.setIfInBounds i.toNat v = c.regs := by
    ext j hj
    have hne : i.toNat ≠ j := by omega
    simp [hne]
  simp only [CoreState.setX, this]

/-- A register field below `NREG` reads back as itself. -/
theorem toNat_ofNat_of_lt_nreg {n : Nat} (hp : p.NREG ≤ 2 ^ p.W) (h : n < p.NREG) : (BitVec.ofNat p.W n).toNat = n := by
  simp only [BitVec.toNat_ofNat]
  exact Nat.mod_eq_of_lt (by omega)

/-- The advance moves the pc by the offset, or ends the run where that leaves the program. -/
theorem CoreState.advance_cases (c : CoreState p) (off : Word p.W) :
    ((c.pc + off).toNat < c.prog.length ∧ c.advance off = c.setPc (c.pc + off)) ∨
      (c.prog.length ≤ (c.pc + off).toNat ∧
        c.advance off = (c.setPc (c.pc + off)).endRun (.error .outOfBoundsProgramCounter (c.pc + off))) := by
  by_cases h : (c.pc + off).toNat < c.prog.length
  · exact .inl ⟨h, if_pos h⟩
  · exact .inr ⟨by omega, if_neg h⟩

/-- What follows a handler: the stop it asks for, a halt, an unexpected halt, or the advance. -/
theorem CoreState.sequence_cases (c : CoreState p) (haltOpcode : Bool) (opv : Word p.W) (r : HandlerResult p) :
    (∃ o, r = .stop o ∧ c.sequence haltOpcode opv r = c.endRun o) ∨
      ∃ c' off, r = .effect c' off ∧
        ((off = 0 ∧ haltOpcode = true ∧ c.sequence haltOpcode opv r = c'.endRun (.halted opv)) ∨
          (off = 0 ∧ haltOpcode = false ∧
            c.sequence haltOpcode opv r = c'.endRun (.error .unexpectedHaltOpcode c'.pc)) ∨
          (off ≠ 0 ∧ c.sequence haltOpcode opv r = c'.advance off)) := by
  cases r with
  | stop o => exact .inl ⟨o, rfl, rfl⟩
  | effect c' off =>
    refine .inr ⟨c', off, rfl, ?_⟩
    by_cases h0 : off = 0
    · cases haltOpcode with
      | true => exact .inl ⟨h0, rfl, if_pos h0⟩
      | false => exact .inr (.inl ⟨h0, rfl, if_pos h0⟩)
    · exact .inr (.inr ⟨h0, if_neg h0⟩)

/-- The operand value: the register's content, the literal, or nothing where the index is outside the file. -/
theorem CoreState.operand_cases (c : CoreState p) (form : Form) (rhs : Word p.W) :
    (form = .register ∧ p.NREG ≤ rhs.toNat ∧ c.operand form rhs = none) ∨
      (form = .register ∧ rhs.toNat < p.NREG ∧ c.operand form rhs = some (c.x rhs)) ∨
      (form ≠ .register ∧ c.operand form rhs = some rhs) := by
  cases form with
  | register =>
    by_cases h : rhs.toNat < p.NREG
    · exact .inr (.inl ⟨rfl, h, by simp [CoreState.operand, CoreState.inFile, h]⟩)
    · exact .inl ⟨rfl, by omega, by simp [CoreState.operand, CoreState.inFile, h]⟩
  | immediate => exact .inr (.inr ⟨by simp, rfl⟩)
  | unused => exact .inr (.inr ⟨by simp, rfl⟩)

/-- Everything the issue of an instruction can do: an index outside the file, `lhs` first, or the handler and the sequencer. -/
theorem CoreState.issue_cases (c : CoreState p) (usesLhs : Bool) (form : Form) (haltOpcode : Bool) (lhs rhs : Word p.W)
    (handler : CoreState p → Word p.W → Word p.W → HandlerResult p) :
    (usesLhs = true ∧ p.NREG ≤ lhs.toNat ∧
        c.issue usesLhs form haltOpcode lhs rhs handler = c.endRun (.error .outOfBoundsRegister lhs)) ∨
      ((usesLhs = true → lhs.toNat < p.NREG) ∧
        ((form = .register ∧ p.NREG ≤ rhs.toNat ∧
            c.issue usesLhs form haltOpcode lhs rhs handler = c.endRun (.error .outOfBoundsRegister rhs)) ∨
          ∃ opv, c.operand form rhs = some opv ∧
            c.issue usesLhs form haltOpcode lhs rhs handler = c.sequence haltOpcode opv (handler c lhs opv))) := by
  by_cases hl : usesLhs = true ∧ p.NREG ≤ lhs.toNat
  · refine .inl ⟨hl.1, hl.2, ?_⟩
    have : ¬ lhs.toNat < p.NREG := by omega
    simp [CoreState.issue, CoreState.inFile, hl.1, this, CoreState.raise]
  · have hok : usesLhs = true → lhs.toNat < p.NREG := fun h => by
      by_contra hn
      exact hl ⟨h, by omega⟩
    refine .inr ⟨hok, ?_⟩
    have hcheck : (usesLhs && !c.inFile lhs) = false := by
      cases usesLhs with
      | false => rfl
      | true => simp [CoreState.inFile, hok rfl]
    rcases c.operand_cases form rhs with ⟨hf, hr, ho⟩ | ⟨_, _, ho⟩ | ⟨_, ho⟩
    · exact .inl ⟨hf, hr, by simp [CoreState.issue, hcheck, ho, CoreState.raise]⟩
    · exact .inr ⟨_, ho, by simp [CoreState.issue, hcheck, ho]⟩
    · exact .inr ⟨_, ho, by simp [CoreState.issue, hcheck, ho]⟩

/-- With its indices in the file, an instruction is its handler and the sequencer. -/
theorem CoreState.issue_runs (c : CoreState p) {usesLhs : Bool} {form : Form} {haltOpcode : Bool} {lhs rhs opv : Word p.W}
    {handler : CoreState p → Word p.W → Word p.W → HandlerResult p} (hl : usesLhs = true → lhs.toNat < p.NREG)
    (ho : c.operand form rhs = some opv) :
    c.issue usesLhs form haltOpcode lhs rhs handler = c.sequence haltOpcode opv (handler c lhs opv) := by
  rcases c.issue_cases usesLhs form haltOpcode lhs rhs handler with ⟨hu, h, _⟩ | ⟨_, ⟨hf, hr, _⟩ | ⟨v, hv, h⟩⟩
  · have := hl hu
    omega
  · simp [CoreState.operand, CoreState.inFile, hf, Nat.not_lt.2 hr] at ho
  · rw [ho, Option.some.injEq] at hv
    rw [h, hv]

/-- A used `lhs` outside the file ends the run with it. -/
theorem CoreState.issue_lhs_outside (c : CoreState p) {form : Form} {haltOpcode : Bool} {lhs rhs : Word p.W}
    {handler : CoreState p → Word p.W → Word p.W → HandlerResult p} (hl : p.NREG ≤ lhs.toNat) :
    c.issue true form haltOpcode lhs rhs handler = c.endRun (.error .outOfBoundsRegister lhs) := by
  rcases c.issue_cases true form haltOpcode lhs rhs handler with ⟨_, _, h⟩ | ⟨h, _⟩
  · exact h
  · have := h rfl
    omega

/-- A register form's `rhs` outside the file ends the run with it, where `lhs` passes. -/
theorem CoreState.issue_rhs_outside (c : CoreState p) {usesLhs haltOpcode : Bool} {lhs rhs : Word p.W}
    {handler : CoreState p → Word p.W → Word p.W → HandlerResult p} (hl : usesLhs = true → lhs.toNat < p.NREG)
    (hr : p.NREG ≤ rhs.toNat) :
    c.issue usesLhs .register haltOpcode lhs rhs handler = c.endRun (.error .outOfBoundsRegister rhs) := by
  rcases c.issue_cases usesLhs .register haltOpcode lhs rhs handler with ⟨hu, h, _⟩ | ⟨_, ⟨_, _, h⟩ | ⟨v, hv, _⟩⟩
  · have := hl hu
    omega
  · exact h
  · simp [CoreState.operand, CoreState.inFile, Nat.not_lt.2 hr] at hv

theorem CoreState.operand_register (c : CoreState p) {rhs : Word p.W} (h : rhs.toNat < p.NREG) :
    c.operand .register rhs = some c.regs[rhs.toNat] := by
  simp [CoreState.operand, CoreState.inFile, h, c.x_eq rhs h]

theorem CoreState.operand_immediate (c : CoreState p) (rhs : Word p.W) : c.operand .immediate rhs = some rhs := rfl

theorem CoreState.advance_inside (c : CoreState p) {off : Word p.W} (h : (c.pc + off).toNat < c.prog.length) :
    c.advance off = c.setPc (c.pc + off) := if_pos h

theorem CoreState.advance_outside (c : CoreState p) {off : Word p.W} (h : c.prog.length ≤ (c.pc + off).toNat) :
    c.advance off = (c.setPc (c.pc + off)).endRun (.error .outOfBoundsProgramCounter (c.pc + off)) :=
  if_neg (by omega)

/-- Load answers what its checks say; an accepted program is non-empty, fits, and holds valid opcodes only. -/
theorem loadRejection_eq_none (ws : List (InstrWord p.W)) (h : loadRejection p ws = none) :
    1 ≤ ws.length ∧ ws.length ≤ p.PROG_CAP ∧ ∀ w ∈ ws, (opcodeField w).toNat ≤ 18 := by
  unfold loadRejection at h
  split at h
  · cases h
  · split at h
    · cases h
    · simp only [Option.map_eq_none_iff, firstInvalid, List.findIdx?_eq_none_iff, decide_eq_false_iff_not] at h
      exact ⟨by omega, by omega, fun w hw => by have := h w hw; omega⟩

end Sys2Proof.Machine
end

