-- ==== Sys2Proof/Laws/Exec.lean ====
section
/-! SUPPORT. The instructions: each as one issue of its handler, what a handler can do, and, from these, everything that executing an
instruction can do. -/

namespace Sys2Proof.Machine

variable {p : Params}

/-! Each instruction is one issue. -/

section eqs
variable (c : CoreState p) (lhs rhs : Nat)

theorem exec_add_eq : exec (.add lhs rhs) ⟨p, c⟩ =
    .next ⟨p, c.issue true .register false (BitVec.ofNat p.W lhs) (BitVec.ofNat p.W rhs) (arithmetic aluAdd)⟩ := rfl
theorem exec_addc_eq : exec (.addc lhs rhs) ⟨p, c⟩ =
    .next ⟨p, c.issue true .immediate false (BitVec.ofNat p.W lhs) (BitVec.ofNat p.W rhs) (arithmetic aluAdd)⟩ := rfl
theorem exec_div_eq : exec (.div lhs rhs) ⟨p, c⟩ =
    .next ⟨p, c.issue true .register false (BitVec.ofNat p.W lhs) (BitVec.ofNat p.W rhs) (division aluDiv (BitVec.ofNat p.W rhs))⟩ := rfl
theorem exec_divc_eq : exec (.divc lhs rhs) ⟨p, c⟩ =
    .next ⟨p, c.issue true .immediate false (BitVec.ofNat p.W lhs) (BitVec.ofNat p.W rhs) (division aluDiv 0)⟩ := rfl
theorem exec_mod_eq : exec (.mod lhs rhs) ⟨p, c⟩ =
    .next ⟨p, c.issue true .register false (BitVec.ofNat p.W lhs) (BitVec.ofNat p.W rhs) (division aluMod (BitVec.ofNat p.W rhs))⟩ := rfl
theorem exec_modc_eq : exec (.modc lhs rhs) ⟨p, c⟩ =
    .next ⟨p, c.issue true .immediate false (BitVec.ofNat p.W lhs) (BitVec.ofNat p.W rhs) (division aluMod 0)⟩ := rfl
theorem exec_mul_eq : exec (.mul lhs rhs) ⟨p, c⟩ =
    .next ⟨p, c.issue true .register false (BitVec.ofNat p.W lhs) (BitVec.ofNat p.W rhs) (arithmetic aluMul)⟩ := rfl
theorem exec_mulc_eq : exec (.mulc lhs rhs) ⟨p, c⟩ =
    .next ⟨p, c.issue true .immediate false (BitVec.ofNat p.W lhs) (BitVec.ofNat p.W rhs) (arithmetic aluMul)⟩ := rfl
theorem exec_set_eq : exec (.set lhs rhs) ⟨p, c⟩ =
    .next ⟨p, c.issue true .register false (BitVec.ofNat p.W lhs) (BitVec.ofNat p.W rhs) assignment⟩ := rfl
theorem exec_setc_eq : exec (.setc lhs rhs) ⟨p, c⟩ =
    .next ⟨p, c.issue true .immediate false (BitVec.ofNat p.W lhs) (BitVec.ofNat p.W rhs) assignment⟩ := rfl
theorem exec_eq_eq : exec (.eq lhs rhs) ⟨p, c⟩ =
    .next ⟨p, c.issue true .register false (BitVec.ofNat p.W lhs) (BitVec.ofNat p.W rhs) compareSkip⟩ := rfl
theorem exec_eqc_eq : exec (.eqc lhs rhs) ⟨p, c⟩ =
    .next ⟨p, c.issue true .immediate false (BitVec.ofNat p.W lhs) (BitVec.ofNat p.W rhs) compareSkip⟩ := rfl
theorem exec_nop_eq : exec (.nop lhs rhs) ⟨p, c⟩ =
    .next ⟨p, c.issue false .unused false (BitVec.ofNat p.W lhs) (BitVec.ofNat p.W rhs) (fun c _ _ => .effect c 1)⟩ := rfl
theorem exec_print_eq : exec (.print lhs rhs) ⟨p, c⟩ =
    .next ⟨p, c.issue false .register false (BitVec.ofNat p.W lhs) (BitVec.ofNat p.W rhs) printString⟩ := rfl
theorem exec_printc_eq : exec (.printc lhs rhs) ⟨p, c⟩ =
    .next ⟨p, c.issue false .immediate false (BitVec.ofNat p.W lhs) (BitVec.ofNat p.W rhs) printString⟩ := rfl
theorem exec_jmp_eq : exec (.jmp lhs rhs) ⟨p, c⟩ =
    .next ⟨p, c.issue false .register false (BitVec.ofNat p.W lhs) (BitVec.ofNat p.W rhs) jump⟩ := rfl
theorem exec_jmpc_eq : exec (.jmpc lhs rhs) ⟨p, c⟩ =
    .next ⟨p, c.issue false .immediate false (BitVec.ofNat p.W lhs) (BitVec.ofNat p.W rhs) jump⟩ := rfl
theorem exec_ret_eq : exec (.ret lhs rhs) ⟨p, c⟩ =
    .next ⟨p, c.issue false .register true (BitVec.ofNat p.W lhs) (BitVec.ofNat p.W rhs) halt⟩ := rfl
theorem exec_retc_eq : exec (.retc lhs rhs) ⟨p, c⟩ =
    .next ⟨p, c.issue false .immediate true (BitVec.ofNat p.W lhs) (BitVec.ofNat p.W rhs) halt⟩ := rfl

end eqs

/-- What the handler of the opcode `n` can do with `lhs` and the operand value `opv`: write `x[lhs]` and advance by one, move the pc only,
append a string, halt, or stop the run without effect. -/
inductive HandlerDoes (c : CoreState p) (n : Nat) (lhs opv : Word p.W) : HandlerResult p → Prop where
  | writes (v : Word p.W) (h : n ≤ 9) : HandlerDoes c n lhs opv (.effect (c.setX lhs v) 1)
  | moves (off : Word p.W) (h : n ∈ [10, 11, 12, 15, 16]) (h0 : 8 ≤ p.W → off ≠ 0) : HandlerDoes c n lhs opv (.effect c off)
  | prints (bytes : List Byte) (h : n ∈ [13, 14]) (hs : c.strmem.stringAt opv = some bytes) :
      HandlerDoes c n lhs opv (.effect (c.append bytes) 1)
  | halts (h : n ∈ [17, 18]) : HandlerDoes c n lhs opv (.effect c 0)
  | divides (info : Word p.W) (h : n ∈ [2, 3, 4, 5]) (h0 : opv = 0) :
      HandlerDoes c n lhs opv (.stop (.error .divisionByZero info))
  | prints_not (h : n ∈ [13, 14]) (hs : c.strmem.stringAt opv = none) : HandlerDoes c n lhs opv (.stop (.printFault opv))

theorem division_does (op : Word p.W → Word p.W → Word p.W) (info : Word p.W) (c : CoreState p) (n : Nat) (lhs opv : Word p.W)
    (h : n ∈ [2, 3, 4, 5]) : HandlerDoes c n lhs opv (division op info c lhs opv) := by
  unfold division
  split
  · next h0 => exact .divides info h h0
  · exact .writes _ (by simp at h; omega)

theorem printString_does (c : CoreState p) (n : Nat) (lhs opv : Word p.W) (h : n ∈ [13, 14]) :
    HandlerDoes c n lhs opv (printString c lhs opv) := by
  unfold printString
  split
  · next hs => exact .prints_not h hs
  · next bytes hs => exact .prints bytes h hs

theorem one_ne_zero_word {W : Nat} (h : 8 ≤ W) : (1 : Word W) ≠ 0 := by
  intro h0
  have := congrArg BitVec.toNat h0
  have hW : 1 < 2 ^ W := Nat.one_lt_two_pow (by omega)
  simp at this
  omega

theorem compareOffset_ne_zero {W : Nat} (h : 8 ≤ W) (a b : Word W) : compareOffset a b ≠ 0 := by
  unfold compareOffset
  split
  · exact one_ne_zero_word h
  · intro h0
    have := congrArg BitVec.toNat h0
    have hW : 2 ^ 8 ≤ 2 ^ W := Nat.pow_le_pow_right (by omega) h
    have h2 : (2 : Word W).toNat = 2 % 2 ^ W := rfl
    rw [h2, Nat.mod_eq_of_lt (by omega)] at this
    simp at this

theorem jumpOffset_ne_zero {W : Nat} (h : 8 ≤ W) (d : Word W) : jumpOffset d ≠ 0 := by
  unfold jumpOffset
  have hpow : 2 ^ W = 2 * 2 ^ (W - 1) := by
    rw [← Nat.pow_succ']
    congr 1
    omega
  have hpos : 2 ^ 7 ≤ 2 ^ (W - 1) := Nat.pow_le_pow_right (by omega) (by omega)
  split
  · next hm =>
    rintro rfl
    simp at hm
  · next hm =>
    intro h0
    have := congrArg BitVec.toNat h0
    have hd : d.toNat < 2 ^ (W - 1) := by
      simpa [BitVec.msb_eq_decide] using hm
    have h1 : (1 : Word W).toNat = 1 % 2 ^ W := rfl
    rw [BitVec.toNat_add, h1, Nat.mod_eq_of_lt (a := 1) (by omega), Nat.mod_eq_of_lt (by omega)] at this
    simp at this

/-- Every instruction is one issue of a handler that does what its opcode allows; it uses `lhs`, and takes `rhs`, as its opcode says. -/
theorem exec_shape (c : CoreState p) (i : Instr) :
    ∃ form handler,
      exec i ⟨p, c⟩ =
          .next ⟨p, c.issue (usesLhs (opcodeNumber i)) form (decide (17 ≤ opcodeNumber i)) (BitVec.ofNat p.W i.lhs)
            (BitVec.ofNat p.W i.rhs) handler⟩ ∧
        (form = .register ↔ isRegisterForm (opcodeNumber i) = true) ∧
        ∀ (c' : CoreState p) (lhs opv : Word p.W), HandlerDoes c' (opcodeNumber i) lhs opv (handler c' lhs opv) := by
  cases i with
  | add lhs rhs => exact ⟨_, _, exec_add_eq c lhs rhs, by simp [opcodeNumber], fun _ _ _ => .writes _ (by simp [opcodeNumber])⟩
  | addc lhs rhs => exact ⟨_, _, exec_addc_eq c lhs rhs, by simp [opcodeNumber], fun _ _ _ => .writes _ (by simp [opcodeNumber])⟩
  | div lhs rhs => exact ⟨_, _, exec_div_eq c lhs rhs, by simp [opcodeNumber], fun c' l v => division_does _ _ c' _ l v (by simp [opcodeNumber])⟩
  | divc lhs rhs => exact ⟨_, _, exec_divc_eq c lhs rhs, by simp [opcodeNumber], fun c' l v => division_does _ _ c' _ l v (by simp [opcodeNumber])⟩
  | mod lhs rhs => exact ⟨_, _, exec_mod_eq c lhs rhs, by simp [opcodeNumber], fun c' l v => division_does _ _ c' _ l v (by simp [opcodeNumber])⟩
  | modc lhs rhs => exact ⟨_, _, exec_modc_eq c lhs rhs, by simp [opcodeNumber], fun c' l v => division_does _ _ c' _ l v (by simp [opcodeNumber])⟩
  | mul lhs rhs => exact ⟨_, _, exec_mul_eq c lhs rhs, by simp [opcodeNumber], fun _ _ _ => .writes _ (by simp [opcodeNumber])⟩
  | mulc lhs rhs => exact ⟨_, _, exec_mulc_eq c lhs rhs, by simp [opcodeNumber], fun _ _ _ => .writes _ (by simp [opcodeNumber])⟩
  | set lhs rhs => exact ⟨_, _, exec_set_eq c lhs rhs, by simp [opcodeNumber], fun _ _ _ => .writes _ (by simp [opcodeNumber])⟩
  | setc lhs rhs => exact ⟨_, _, exec_setc_eq c lhs rhs, by simp [opcodeNumber], fun _ _ _ => .writes _ (by simp [opcodeNumber])⟩
  | eq lhs rhs => exact ⟨_, _, exec_eq_eq c lhs rhs, by simp [opcodeNumber], fun _ _ _ => .moves _ (by simp [opcodeNumber]) (fun h => compareOffset_ne_zero h _ _)⟩
  | eqc lhs rhs => exact ⟨_, _, exec_eqc_eq c lhs rhs, by simp [opcodeNumber], fun _ _ _ => .moves _ (by simp [opcodeNumber]) (fun h => compareOffset_ne_zero h _ _)⟩
  | nop lhs rhs => exact ⟨_, _, exec_nop_eq c lhs rhs, by simp [opcodeNumber], fun _ _ _ => .moves _ (by simp [opcodeNumber]) (fun h => one_ne_zero_word h)⟩
  | print lhs rhs => exact ⟨_, _, exec_print_eq c lhs rhs, by simp [opcodeNumber], fun c' l v => printString_does c' _ l v (by simp [opcodeNumber])⟩
  | printc lhs rhs => exact ⟨_, _, exec_printc_eq c lhs rhs, by simp [opcodeNumber], fun c' l v => printString_does c' _ l v (by simp [opcodeNumber])⟩
  | jmp lhs rhs => exact ⟨_, _, exec_jmp_eq c lhs rhs, by simp [opcodeNumber], fun _ _ _ => .moves _ (by simp [opcodeNumber]) (fun h => jumpOffset_ne_zero h _)⟩
  | jmpc lhs rhs => exact ⟨_, _, exec_jmpc_eq c lhs rhs, by simp [opcodeNumber], fun _ _ _ => .moves _ (by simp [opcodeNumber]) (fun h => jumpOffset_ne_zero h _)⟩
  | ret lhs rhs => exact ⟨_, _, exec_ret_eq c lhs rhs, by simp [opcodeNumber], fun _ _ _ => .halts (by simp [opcodeNumber])⟩
  | retc lhs rhs => exact ⟨_, _, exec_retc_eq c lhs rhs, by simp [opcodeNumber], fun _ _ _ => .halts (by simp [opcodeNumber])⟩

/-- What executing the instruction `i` leaves: the state with its run ended before any effect (or halted), or the state with the effect,
advanced by an offset that is not 0. -/
inductive ExecLeaves (c : CoreState p) (i : Instr) : CoreState p → Prop where
  | ends (o : RunOutcome p.W) (cause : EndCause) (h : canEndBy (opcodeNumber i) cause = true) (h' : EndsBy p i cause o)
      (hpc : cause ≠ .programCounter) : ExecLeaves c i (c.endRun o)
  | writes (v : Word p.W) (h : opcodeNumber i ≤ 9) : ExecLeaves c i ((c.setX (BitVec.ofNat p.W i.lhs) v).advance 1)
  | moves (off : Word p.W) (h : opcodeNumber i ∈ [10, 11, 12, 15, 16]) (h0 : off ≠ 0) : ExecLeaves c i (c.advance off)
  | prints (bytes : List Byte) (h : opcodeNumber i ∈ [13, 14]) : ExecLeaves c i ((c.append bytes).advance 1)

/-- Everything that executing an instruction can do: always a next state, and one of the cases of `ExecLeaves`. -/
theorem exec_cases (hW : 8 ≤ p.W) (c : CoreState p) (i : Instr) :
    ∃ c', exec i ⟨p, c⟩ = .next ⟨p, c'⟩ ∧ ExecLeaves c i c' := by
  obtain ⟨form, handler, hexec, hform, hdoes⟩ := exec_shape c i
  refine ⟨_, hexec, ?_⟩
  rcases c.issue_cases (usesLhs (opcodeNumber i)) form (decide (17 ≤ opcodeNumber i)) (BitVec.ofNat p.W i.lhs)
      (BitVec.ofNat p.W i.rhs) handler with ⟨hu, hlhs, h⟩ | ⟨hlhs, ⟨hf, hrhs, h⟩ | ⟨opv, _, h⟩⟩
  · rw [h]
    refine .ends _ .registerLhs ?_ (.registerLhs hlhs) (by simp)
    simp [usesLhs] at hu
    simp [canEndBy]
    omega
  · rw [h]
    exact .ends _ .registerRhs (by simpa [canEndBy] using hform.1 hf) (.registerRhs hrhs hlhs) (by simp)
  · rw [h]
    have hd := hdoes c (BitVec.ofNat p.W i.lhs) opv
    have h1 : (1 : Word p.W) ≠ 0 := one_ne_zero_word hW
    generalize handler c (BitVec.ofNat p.W i.lhs) opv = r at hd
    cases hd with
    | writes v hn => rw [CoreState.sequence, if_neg h1]; exact .writes v hn
    | moves off hn h0 => rw [CoreState.sequence, if_neg (h0 hW)]; exact .moves off hn (h0 hW)
    | prints bytes hn hs => rw [CoreState.sequence, if_neg h1]; exact .prints bytes hn
    | halts hn =>
      have : 17 ≤ opcodeNumber i := by simp at hn; omega
      rw [CoreState.sequence, if_pos rfl, if_pos (by simpa using this)]
      exact .ends _ .halt (by simpa [canEndBy] using hn) (.halt opv) (by simp)
    | divides info hn h0 => exact .ends _ .divisionByZero (by simpa [canEndBy] using hn) (.divisionByZero info) (by simp)
    | prints_not hn hs => exact .ends _ .printFault (by simpa [canEndBy] using hn) (.printFault opv) (by simp)

end Sys2Proof.Machine
end

