-- ==== Sys2Proof/Laws/PerInstr.lean ====
section
/-! SUPPORT. The facts that are proved instruction by instruction. Family `OpcodeTable`: an instruction's opcode number is in the table of
30_encoding.md rule R75, the table gives the instruction back, and its form is the one of rule R76. -/

namespace Sys2Proof.Laws

/-- The instruction is the table's row of its number: register form or immediate form and never both, neither for `nop` alone. -/
def OpcodeTable.Statement (i : Instr) : Prop :=
  opcodeNumber i ≤ 18 ∧ instrOfOpcode (opcodeNumber i) i.lhs i.rhs = some i ∧
    (isRegisterForm (opcodeNumber i) && isImmediateForm (opcodeNumber i)) = false ∧
    ((isRegisterForm (opcodeNumber i) || isImmediateForm (opcodeNumber i)) = true ↔ opcodeNumber i ≠ 12)

theorem OpcodeTable.add (lhs rhs : Nat) : OpcodeTable.Statement (.add lhs rhs) :=
  ⟨opcodeNumber_le _, rfl, rfl, by simp [opcodeNumber, isRegisterForm, isImmediateForm]⟩
theorem OpcodeTable.addc (lhs rhs : Nat) : OpcodeTable.Statement (.addc lhs rhs) :=
  ⟨opcodeNumber_le _, rfl, rfl, by simp [opcodeNumber, isRegisterForm, isImmediateForm]⟩
theorem OpcodeTable.div (lhs rhs : Nat) : OpcodeTable.Statement (.div lhs rhs) :=
  ⟨opcodeNumber_le _, rfl, rfl, by simp [opcodeNumber, isRegisterForm, isImmediateForm]⟩
theorem OpcodeTable.divc (lhs rhs : Nat) : OpcodeTable.Statement (.divc lhs rhs) :=
  ⟨opcodeNumber_le _, rfl, rfl, by simp [opcodeNumber, isRegisterForm, isImmediateForm]⟩
theorem OpcodeTable.mod (lhs rhs : Nat) : OpcodeTable.Statement (.mod lhs rhs) :=
  ⟨opcodeNumber_le _, rfl, rfl, by simp [opcodeNumber, isRegisterForm, isImmediateForm]⟩
theorem OpcodeTable.modc (lhs rhs : Nat) : OpcodeTable.Statement (.modc lhs rhs) :=
  ⟨opcodeNumber_le _, rfl, rfl, by simp [opcodeNumber, isRegisterForm, isImmediateForm]⟩
theorem OpcodeTable.mul (lhs rhs : Nat) : OpcodeTable.Statement (.mul lhs rhs) :=
  ⟨opcodeNumber_le _, rfl, rfl, by simp [opcodeNumber, isRegisterForm, isImmediateForm]⟩
theorem OpcodeTable.mulc (lhs rhs : Nat) : OpcodeTable.Statement (.mulc lhs rhs) :=
  ⟨opcodeNumber_le _, rfl, rfl, by simp [opcodeNumber, isRegisterForm, isImmediateForm]⟩
theorem OpcodeTable.set (lhs rhs : Nat) : OpcodeTable.Statement (.set lhs rhs) :=
  ⟨opcodeNumber_le _, rfl, rfl, by simp [opcodeNumber, isRegisterForm, isImmediateForm]⟩
theorem OpcodeTable.setc (lhs rhs : Nat) : OpcodeTable.Statement (.setc lhs rhs) :=
  ⟨opcodeNumber_le _, rfl, rfl, by simp [opcodeNumber, isRegisterForm, isImmediateForm]⟩
theorem OpcodeTable.eq (lhs rhs : Nat) : OpcodeTable.Statement (.eq lhs rhs) :=
  ⟨opcodeNumber_le _, rfl, rfl, by simp [opcodeNumber, isRegisterForm, isImmediateForm]⟩
theorem OpcodeTable.eqc (lhs rhs : Nat) : OpcodeTable.Statement (.eqc lhs rhs) :=
  ⟨opcodeNumber_le _, rfl, rfl, by simp [opcodeNumber, isRegisterForm, isImmediateForm]⟩
theorem OpcodeTable.nop (lhs rhs : Nat) : OpcodeTable.Statement (.nop lhs rhs) :=
  ⟨opcodeNumber_le _, rfl, rfl, by simp [opcodeNumber, isRegisterForm, isImmediateForm]⟩
theorem OpcodeTable.print (lhs rhs : Nat) : OpcodeTable.Statement (.print lhs rhs) :=
  ⟨opcodeNumber_le _, rfl, rfl, by simp [opcodeNumber, isRegisterForm, isImmediateForm]⟩
theorem OpcodeTable.printc (lhs rhs : Nat) : OpcodeTable.Statement (.printc lhs rhs) :=
  ⟨opcodeNumber_le _, rfl, rfl, by simp [opcodeNumber, isRegisterForm, isImmediateForm]⟩
theorem OpcodeTable.jmp (lhs rhs : Nat) : OpcodeTable.Statement (.jmp lhs rhs) :=
  ⟨opcodeNumber_le _, rfl, rfl, by simp [opcodeNumber, isRegisterForm, isImmediateForm]⟩
theorem OpcodeTable.jmpc (lhs rhs : Nat) : OpcodeTable.Statement (.jmpc lhs rhs) :=
  ⟨opcodeNumber_le _, rfl, rfl, by simp [opcodeNumber, isRegisterForm, isImmediateForm]⟩
theorem OpcodeTable.ret (lhs rhs : Nat) : OpcodeTable.Statement (.ret lhs rhs) :=
  ⟨opcodeNumber_le _, rfl, rfl, by simp [opcodeNumber, isRegisterForm, isImmediateForm]⟩
theorem OpcodeTable.retc (lhs rhs : Nat) : OpcodeTable.Statement (.retc lhs rhs) :=
  ⟨opcodeNumber_le _, rfl, rfl, by simp [opcodeNumber, isRegisterForm, isImmediateForm]⟩

end Sys2Proof.Laws
end

