-- ==== Sys2Proof/Laws/Step.lean ====
section
/-! SUPPORT. What one step can do, said once: the host's step and the machine's. -/

namespace Sys2Proof.Machine

variable {p : Params}

/-- Everything an accepted transaction, or none presented, can do. -/
theorem CoreState.hostStep_cases (c : CoreState p) :
    (c.inbox = [] ∧ c.hostStep = c) ∨
      ∃ cmd later, c.inbox = cmd :: later ∧
        ((∃ ws r, cmd = .load ws ∧ loadRejection p ws = some r ∧
            c.hostStep = { c with inbox := later, response := some (.loadRejected r) }) ∨
          (∃ ws, cmd = .load ws ∧ loadRejection p ws = none ∧
            c.hostStep = { c with inbox := later, prog := ws, response := some .ok }) ∨
          (∃ i r, cmd = .regGet i ∧ c.hostStep = { c with inbox := later, response := some r }) ∨
          (∃ i v r, cmd = .regSet i v ∧
            c.hostStep = { c.setX i v with inbox := later, response := some r }) ∨
          (cmd = .run ∧ c.hostStep = ({ c with inbox := later } : CoreState p).startRun) ∨
          ∃ cells, cmd = .supplyStrmem cells ∧
            c.hostStep = { c with inbox := later, strmem := Memory.ofCells cells, response := some .ok }) := by
  cases hi : c.inbox with
  | nil => exact .inl ⟨rfl, by simp only [CoreState.hostStep, hi]⟩
  | cons cmd later =>
    refine .inr ⟨cmd, later, rfl, ?_⟩
    have hs : c.hostStep = ({ c with inbox := later } : CoreState p).perform cmd := by
      simp only [CoreState.hostStep, hi]
    rw [hs]
    cases cmd with
    | load ws =>
      cases hr : loadRejection p ws with
      | some r => exact .inl ⟨ws, r, rfl, hr, by simp only [CoreState.perform, CoreState.load, hr]⟩
      | none => exact .inr (.inl ⟨ws, rfl, hr, by simp only [CoreState.perform, CoreState.load, hr]⟩)
    | regGet i => exact .inr (.inr (.inl ⟨i, _, rfl, rfl⟩))
    | regSet i v =>
      refine .inr (.inr (.inr (.inl ?_)))
      by_cases h : i.toNat < p.NREG
      · exact ⟨i, v, .ok, rfl, by simp [CoreState.perform, CoreState.regSet, CoreState.inFile, h, CoreState.setX]⟩
      · refine ⟨i, v, .error .outOfBoundsRegister i, rfl, ?_⟩
        rw [c.setX_outside i v h]
        simp [CoreState.perform, CoreState.regSet, CoreState.inFile, h]
    | run => exact .inr (.inr (.inr (.inr (.inl ⟨rfl, rfl⟩))))
    | supplyStrmem cells => exact .inr (.inr (.inr (.inr (.inr ⟨cells, rfl, rfl⟩))))

/-- Everything one pass of the run loop can do. -/
theorem State.runStep_cases (c : CoreState p) :
    (p.STEP_BUDGET = some c.steps ∧ State.runStep ⟨p, c⟩ = .next ⟨p, c.endRun .budgetExhausted⟩) ∨
      (p.STEP_BUDGET ≠ some c.steps ∧
        ((c.prog.length ≤ c.pc.toNat ∧ State.runStep ⟨p, c⟩ = .fault .fetchOutsideProgram) ∨
          ∃ w, c.prog[c.pc.toNat]? = some w ∧
            ((∃ i, decode w = .instr i ∧ State.runStep ⟨p, c⟩ = exec i ⟨p, c.countStep⟩) ∨
              (19 ≤ (opcodeField w).toNat ∧
                State.runStep ⟨p, c⟩ = .refused (.invalidOpcode (opcodeField w).toNat))))) := by
  by_cases hb : p.STEP_BUDGET = some c.steps
  · exact .inl ⟨hb, by simp [State.runStep, CoreState.budgetSpent, hb]⟩
  · refine .inr ⟨hb, ?_⟩
    cases hf : c.prog[c.pc.toNat]? with
    | none =>
      exact .inl ⟨by simpa using hf, by simp [State.runStep, CoreState.budgetSpent, hb, CoreState.fetch, hf]⟩
    | some w =>
      refine .inr ⟨w, rfl, ?_⟩
      rcases decode_cases w with ⟨i, hd, _⟩ | ⟨hd, hn⟩
      · exact .inl ⟨i, hd, by simp [State.runStep, CoreState.budgetSpent, hb, CoreState.fetch, hf, hd]⟩
      · exact .inr ⟨hn, by simp [State.runStep, CoreState.budgetSpent, hb, CoreState.fetch, hf, hd]⟩

/-- Which of its three ways a step takes. -/
theorem step_cases (c : CoreState p) :
    (c.rst = true ∧ step ⟨p, c⟩ = .next ⟨p, c.construct⟩) ∨
      (c.rst = false ∧ c.status = .running ∧ step ⟨p, c⟩ = State.runStep ⟨p, c⟩) ∨
      (c.rst = false ∧ c.status ≠ .running ∧ step ⟨p, c⟩ = .next ⟨p, c.hostStep⟩) := by
  cases hr : c.rst with
  | true => exact .inl ⟨rfl, by simp [step, State.cycle, hr]⟩
  | false =>
    by_cases hs : c.status = .running
    · exact .inr (.inl ⟨rfl, hs, by simp [step, State.cycle, hr, hs]⟩)
    · exact .inr (.inr ⟨rfl, hs, by simp [step, State.cycle, hr, hs]⟩)

end Sys2Proof.Machine
end

