-- ==== Sys2Proof/Tests/Slice0.lean ====
section
/-! SUPPORT. The model's own tests: ill-formed terms, decoding, one-step vectors of 95_test_vectors.md (each named by its id there), and for
every obligation with hypotheses a state that meets them (`witness_…`). -/

namespace Sys2Proof.Tests

open Sys2Proof.Machine

/-! The test machine of 95_test_vectors.md: `W = 32`, `NREG = 8`, no budget. -/

/-- The parameters of the single-step vectors. -/
abbrev P : Params := { W := 32, NREG := 8, PROG_CAP := 2 ^ 31, STEP_BUDGET := none }

/-- A RUNNING machine at slot `pc` of a program of 16 `nop` words, with the given registers. -/
def vm (pc : Nat) (regs : List (Nat × Nat)) : CoreState P :=
  regs.foldl (fun c r => c.setX (BitVec.ofNat 32 r.1) (BitVec.ofNat 32 r.2))
    { CoreState.initial P with
      status := .running, pc := BitVec.ofNat 32 pc, prog := List.replicate 16 (0x0C0000000000000000 : InstrWord 32) }

/-- The string memory of 95_test_vectors.md section 2.6. -/
def strings : Memory := [(0x1000, 0x48), (0x1001, 0x69), (0x1002, 0x0A), (0x1003, 0), (0x1004, 0)]

/-- A machine with a string memory. -/
def CoreStateWith (c : CoreState P) (m : Memory) : CoreState P := { c with strmem := m }

/-- The info word of an outcome, or the address of a print fault, or the value of a halt. -/
def word {W : Nat} : RunOutcome W → Nat
  | .halted v => v.toNat
  | .error _ info => info.toNat
  | .budgetExhausted => 0
  | .printFault a => a.toNat

/-- After one instruction: register `n`, the pc, the outcome's number and word, and `fault_pc`. -/
def seen (i : Instr) (c : CoreState P) (n : Nat) : Option (Nat × Nat × Option (Nat × Nat) × Option Nat) :=
  match exec i ⟨P, c⟩ with
  | .next t =>
    some ((t.core.x (BitVec.ofNat _ n)).toNat, t.core.pc.toNat, t.core.outcome.map (fun o => (o.number, word o)),
      t.core.faultPc.map (fun v => v.toNat))
  | _ => none

/-- After one instruction: the output bytes. -/
def printed (i : Instr) (c : CoreState P) : Option (List Nat) :=
  match exec i ⟨P, c⟩ with
  | .next t => some (t.core.out.map (fun b => b.toNat))
  | _ => none

/-! Ill-formed terms (30_encoding.md rule R72). -/

theorem test_lhs_too_wide : ¬ (Instr.add (2 ^ 32) 0).WellFormed 32 := by decide
theorem test_rhs_too_wide : ¬ (Instr.addc 0 (2 ^ 32)).WellFormed 32 := by decide
theorem test_widest_fields : (Instr.nop (2 ^ 32 - 1) (2 ^ 32 - 1)).WellFormed 32 := by decide

/-! Decoding, every constructor; the words are written out from 30_encoding.md rules R72, R75. -/

theorem test_decode_add : decodeTableWord 72 0x0000000003FFFFFFF9 = some (.add 3 0xFFFFFFF9) := by decide
theorem test_decode_addc : decodeTableWord 72 0x0100000003FFFFFFF9 = some (.addc 3 0xFFFFFFF9) := by decide
theorem test_decode_div : decodeTableWord 72 0x0200000003FFFFFFF9 = some (.div 3 0xFFFFFFF9) := by decide
theorem test_decode_divc : decodeTableWord 72 0x0300000003FFFFFFF9 = some (.divc 3 0xFFFFFFF9) := by decide
theorem test_decode_mod : decodeTableWord 72 0x0400000003FFFFFFF9 = some (.mod 3 0xFFFFFFF9) := by decide
theorem test_decode_modc : decodeTableWord 72 0x0500000003FFFFFFF9 = some (.modc 3 0xFFFFFFF9) := by decide
theorem test_decode_mul : decodeTableWord 72 0x0600000003FFFFFFF9 = some (.mul 3 0xFFFFFFF9) := by decide
theorem test_decode_mulc : decodeTableWord 72 0x0700000003FFFFFFF9 = some (.mulc 3 0xFFFFFFF9) := by decide
theorem test_decode_set : decodeTableWord 72 0x0800000003FFFFFFF9 = some (.set 3 0xFFFFFFF9) := by decide
theorem test_decode_setc : decodeTableWord 72 0x0900000003FFFFFFF9 = some (.setc 3 0xFFFFFFF9) := by decide
theorem test_decode_eq : decodeTableWord 72 0x0A00000003FFFFFFF9 = some (.eq 3 0xFFFFFFF9) := by decide
theorem test_decode_eqc : decodeTableWord 72 0x0B00000003FFFFFFF9 = some (.eqc 3 0xFFFFFFF9) := by decide
theorem test_decode_nop : decodeTableWord 72 0x0C00000003FFFFFFF9 = some (.nop 3 0xFFFFFFF9) := by decide
theorem test_decode_print : decodeTableWord 72 0x0D00000003FFFFFFF9 = some (.print 3 0xFFFFFFF9) := by decide
theorem test_decode_printc : decodeTableWord 72 0x0E00000003FFFFFFF9 = some (.printc 3 0xFFFFFFF9) := by decide
theorem test_decode_jmp : decodeTableWord 72 0x0F00000003FFFFFFF9 = some (.jmp 3 0xFFFFFFF9) := by decide
theorem test_decode_jmpc : decodeTableWord 72 0x1000000003FFFFFFF9 = some (.jmpc 3 0xFFFFFFF9) := by decide
theorem test_decode_ret : decodeTableWord 72 0x1100000003FFFFFFF9 = some (.ret 3 0xFFFFFFF9) := by decide
theorem test_decode_retc : decodeTableWord 72 0x1200000003FFFFFFF9 = some (.retc 3 0xFFFFFFF9) := by decide

theorem test_decode_invalid : decodeTableWord 72 0x130000000000000000 = none := by decide
theorem test_reject_by_name : decode (0xFF0000000000000000 : InstrWord 32) = .rejected (.invalidOpcode 255) := by decide
/-- V72 -/
theorem test_encode_eq : encode 32 (.eq 3 4) = 0x0A0000000300000004#72 := by decide
/-- V76: `W = 8` -/
theorem test_encode_w8 : encode 8 (.addc 2 255) = 0x0102FF#24 := by decide
theorem test_decode_w8 : decode (0x0102FF : InstrWord 8) = .instr (.addc 2 255) := by decide

/-! One step of each instruction. -/

/-- V2 -/
theorem test_add_wraps : seen (.add 1 2) (vm 5 [(1, 0xFFFFFFFF), (2, 1)]) 1 = some (0, 6, none, none) := by decide
/-- V3 -/
theorem test_add_same_register : seen (.add 1 1) (vm 5 [(1, 0x80000001)]) 1 = some (2, 6, none, none) := by decide
/-- V6 -/
theorem test_addc_decrements : seen (.addc 2 0xFFFFFFFF) (vm 5 [(2, 0)]) 2 = some (0xFFFFFFFF, 6, none, none) := by decide
/-- V64 -/
theorem test_addc_last_slot : seen (.addc 0 1) (vm 15 [(0, 4)]) 0 = some (5, 16, some (2, 16), some 16) := by decide
/-- V23 -/
theorem test_div_by_zero_register : seen (.div 0 1) (vm 5 [(0, 9), (1, 0)]) 0 = some (9, 5, some (3, 1), some 5) := by decide
/-- V60 -/
theorem test_div_checks_lhs_first : seen (.div 9 10) (vm 5 []) 0 = some (0, 5, some (1, 9), some 5) := by decide
/-- V16 -/
theorem test_divc_unsigned : seen (.divc 0 2) (vm 5 [(0, 0xFFFFFFFF)]) 0 = some (0x7FFFFFFF, 6, none, none) := by decide
/-- V62 -/
theorem test_divc_bounds_before_divisor : seen (.divc 9 0) (vm 5 []) 0 = some (0, 5, some (1, 9), some 5) := by decide
/-- V19 -/
theorem test_mod_smaller : seen (.mod 0 1) (vm 5 [(0, 5), (1, 7)]) 0 = some (5, 6, none, none) := by decide
/-- V20 -/
theorem test_mod_same_register : seen (.mod 0 0) (vm 5 [(0, 9)]) 0 = some (0, 6, none, none) := by decide
/-- V22 -/
theorem test_modc_remainder : seen (.modc 0 0x1234) (vm 5 [(0, 0xDEADBEEF)]) 0 = some (0x76B, 6, none, none) := by decide
/-- V24 -/
theorem test_modc_by_zero : seen (.modc 0 0) (vm 5 [(0, 9)]) 0 = some (9, 5, some (3, 0), some 5) := by decide
/-- V8 -/
theorem test_mul_low_half : seen (.mul 0 1) (vm 5 [(0, 123456), (1, 654321)]) 0 = some (0xCEDABE40, 6, none, none) := by decide
/-- V9 -/
theorem test_mul_all_ones : seen (.mul 0 0) (vm 5 [(0, 0xFFFFFFFF)]) 0 = some (1, 6, none, none) := by decide
/-- V12 -/
theorem test_mulc_negates : seen (.mulc 0 0xFFFFFFFF) (vm 5 [(0, 5)]) 0 = some (0xFFFFFFFB, 6, none, none) := by decide
/-- V25 -/
theorem test_set_copies : seen (.set 0 3) (vm 5 [(0, 1), (3, 0xDEADBEEF)]) 0 = some (0xDEADBEEF, 6, none, none) := by decide
/-- V27 -/
theorem test_setc_loads : seen (.setc 3 0xDEADBEEF) (vm 5 [(3, 99)]) 3 = some (0xDEADBEEF, 6, none, none) := by decide
/-- V29 -/
theorem test_setc_out_of_range : seen (.setc 8 1) (vm 5 []) 0 = some (0, 5, some (1, 8), some 5) := by decide
/-- V30 -/
theorem test_eq_equal_falls_through : seen (.eq 0 1) (vm 5 [(0, 5), (1, 5)]) 0 = some (5, 6, none, none) := by decide
/-- V31 -/
theorem test_eq_unequal_skips : seen (.eq 0 1) (vm 5 [(0, 5), (1, 6)]) 0 = some (5, 7, none, none) := by decide
/-- V34 -/
theorem test_eqc_unequal_skips : seen (.eqc 2 10) (vm 5 [(2, 9)]) 2 = some (9, 7, none, none) := by decide
/-- V37 -/
theorem test_eqc_skips_out : seen (.eqc 0 1) (vm 14 []) 0 = some (0, 16, some (2, 16), some 16) := by decide
/-- V36 -/
theorem test_nop_ignores_fields : seen (.nop 0xFFFFFFFF 0xFFFFFFFF) (vm 5 []) 0 = some (0, 6, none, none) := by decide
/-- V47 -/
theorem test_jmp_backward : seen (.jmp 0 5) (vm 5 [(5, 0xFFFFFFFD)]) 5 = some (0xFFFFFFFD, 2, none, none) := by decide
/-- V49 -/
theorem test_jmp_out_of_range : seen (.jmp 0 8) (vm 5 []) 0 = some (0, 5, some (1, 8), some 5) := by decide
/-- V41, V49b -/
theorem test_jmpc_forward : seen (.jmpc 0xFFFFFFFF 3) (vm 5 []) 0 = some (0, 9, none, none) := by decide
/-- V45 -/
theorem test_jmpc_before_slot_0 : seen (.jmpc 0 0xFFFFFFFA) (vm 5 []) 0 = some (0, 0xFFFFFFFF, some (2, 0xFFFFFFFF), some 0xFFFFFFFF) := by decide
/-- V51, V54a -/
theorem test_ret_value : seen (.ret 0xFFFFFFFF 3) (vm 5 [(3, 55)]) 3 = some (55, 5, some (0, 55), none) := by decide
/-- V54 -/
theorem test_ret_out_of_range : seen (.ret 0 8) (vm 5 []) 0 = some (0, 5, some (1, 8), some 5) := by decide
/-- V53 -/
theorem test_retc_all_ones : seen (.retc 0 0xFFFFFFFF) (vm 5 []) 0 = some (0, 5, some (0, 0xFFFFFFFF), none) := by decide

/-- V56 -/
theorem test_print_register : printed (.print 0 4) (CoreStateWith (vm 5 [(4, 0x1001)]) strings) = some [0x69, 0x0A] := by decide
/-- V59b: the bounds check comes before any memory read -/
theorem test_print_out_of_range : seen (.print 0 8) (vm 5 []) 0 = some (0, 5, some (1, 8), some 5) := by decide
/-- V55 -/
theorem test_printc_string : printed (.printc 0 0x1000) (CoreStateWith (vm 5 []) strings) = some [0x48, 0x69, 0x0A] := by decide
/-- V59a: the scan does not wrap -/
theorem test_printc_no_wrap :
    seen (.printc 0 0xFFFFFFFE) (CoreStateWith (vm 5 []) [(0, 0), (0xFFFFFFFE, 0x41), (0xFFFFFFFF, 0x42)]) 0 =
      some (0, 5, some (6, 0xFFFFFFFE), some 5) := by decide

/-- Section 2.1 at `W = 8`: 200 + 100 is 44 -/
theorem test_add_w8 : aluAdd (200 : Word 8) 100 = 44 ∧ aluMul (0x90 : Word 8) 2 = 0x20 := by decide

/-! The host (47_host_operations.md). -/

/-- V66 -/
theorem test_regGet_out_of_range : ((vm 5 []).perform (.regGet 8)).response = some (.error .outOfBoundsRegister 8) := by decide
/-- V73: slot 1 is the least invalid one, the old program is kept -/
theorem test_load_invalid :
    ((CoreState.initial P).perform (.load [0x120000000000000001, 0x130000000000000000])).response =
        some (.loadRejected (.invalidOpcode 1)) ∧
      ((CoreState.initial P).perform (.load [0x120000000000000001, 0x130000000000000000])).prog = [0x110000000000000000] := by
  decide
/-- V74 -/
theorem test_load_empty : ((CoreState.initial P).perform (.load [])).response = some (.loadRejected .empty) := by decide
/-- V75: field values are not checked at load -/
theorem test_load_unchecked_fields : ((CoreState.initial P).perform (.load [0x030000006300000000])).response = some .ok := by decide
/-- R109: a RUNNING machine shows no register; R167: a stopped one does -/
theorem test_view_while_running : (vm 5 [(1, 2)]).hostView.regs = none ∧ (CoreState.initial P).hostView.regs = some (Vector.replicate 8 0) := ⟨rfl, rfl⟩
theorem test_supply_sorts : Memory.ofCells [((7 : Word 32), 1), (3, 2), (7, 4)] = [(3, 2), (7, 4)] := by decide
theorem test_reset_memory_wf : State.reset.core.strmem.wf := by decide
theorem test_reset_is_idle : step State.reset = .next State.reset := rfl

/-! The assembler (30_encoding.md rules R85 to R87). -/

/-- P5, with a label and a comment -/
theorem test_assemble_label :
    assemble 32 "loop: nop ; again\n  jmpc loop" = some [.nop 0 0, .jmpc 0 0xFFFFFFFF] := by decide
theorem test_assemble_forward_label :
    assemble 32 "eqc r2, 10\njmpc out\nset r3, r0\nout: ret r0" =
      some [.eqc 2 10, .jmpc 0 1, .set 3 0, .ret 0 0] := by decide
theorem test_assemble_wrong_operand : assemble 32 "add r1, 2" = none := by decide
/-- V70 -/
theorem test_disassemble_addc : disassembleText 32 (.addc 2 0xFFFFFFFF) = "addc r2, 4294967295" := by decide
/-- V71 -/
theorem test_disassemble_jmpc : disassembleText 32 (.jmpc 0 0xFFFFFFF9) = "jmpc -7" := by decide

/-! Witnesses: for each obligation with hypotheses, states and operands that meet them, at the edges of their ranges. `mid` is one slot
before the last of 16, `last` the last. -/

def mid : CoreState P := vm 14 [(7, 1)]
def last : CoreState P := vm 15 [(7, 1)]
/-- a RUNNING machine with `n` budget, at the default program -/
def budgeted (n : Nat) : CoreState { P with STEP_BUDGET := some n } :=
  { CoreState.initial _ with status := .running }

theorem witness_AddWritesTheSum :
    P.Valid ∧ (Instr.add 7 7).WellFormed P.W ∧ (7 < P.NREG ∧ (mid.pc + 1).toNat < mid.prog.length) ∧
      (last.prog.length ≤ (last.pc + 1).toNat) ∧ P.NREG ≤ 8 ∧ (Instr.add 8 8).WellFormed P.W := by decide
theorem witness_AddcWritesTheSum :
    P.Valid ∧ (Instr.addc 7 1).WellFormed P.W ∧ (7 < P.NREG ∧ (mid.pc + 1).toNat < mid.prog.length) ∧
      (last.prog.length ≤ (last.pc + 1).toNat) ∧ P.NREG ≤ 8 ∧ (Instr.addc 8 0).WellFormed P.W := by decide
theorem witness_DivWritesTheQuotient :
    P.Valid ∧ (Instr.div 7 7).WellFormed P.W ∧ (7 < P.NREG ∧ mid.regs[7] ≠ 0 ∧ (mid.pc + 1).toNat < mid.prog.length) ∧
      (last.prog.length ≤ (last.pc + 1).toNat) ∧ mid.regs[0] = 0 ∧ P.NREG ≤ 8 ∧ (Instr.div 8 8).WellFormed P.W := by decide
theorem witness_DivcWritesTheQuotient :
    P.Valid ∧ (Instr.divc 7 1).WellFormed P.W ∧ (7 < P.NREG ∧ (1 : Nat) ≠ 0 ∧ (mid.pc + 1).toNat < mid.prog.length) ∧
      (last.prog.length ≤ (last.pc + 1).toNat) ∧ P.NREG ≤ 8 ∧ (Instr.divc 8 0).WellFormed P.W := by decide
theorem witness_ModWritesTheRemainder :
    P.Valid ∧ (Instr.mod 7 7).WellFormed P.W ∧ (7 < P.NREG ∧ mid.regs[7] ≠ 0 ∧ (mid.pc + 1).toNat < mid.prog.length) ∧
      (last.prog.length ≤ (last.pc + 1).toNat) ∧ mid.regs[0] = 0 ∧ P.NREG ≤ 8 ∧ (Instr.mod 8 8).WellFormed P.W := by decide
theorem witness_ModcWritesTheRemainder :
    P.Valid ∧ (Instr.modc 7 1).WellFormed P.W ∧ (7 < P.NREG ∧ (1 : Nat) ≠ 0 ∧ (mid.pc + 1).toNat < mid.prog.length) ∧
      (last.prog.length ≤ (last.pc + 1).toNat) ∧ P.NREG ≤ 8 ∧ (Instr.modc 8 0).WellFormed P.W := by decide
theorem witness_MulWritesTheProduct :
    P.Valid ∧ (Instr.mul 7 7).WellFormed P.W ∧ (7 < P.NREG ∧ (mid.pc + 1).toNat < mid.prog.length) ∧
      (last.prog.length ≤ (last.pc + 1).toNat) ∧ P.NREG ≤ 8 ∧ (Instr.mul 8 8).WellFormed P.W := by decide
theorem witness_MulcWritesTheProduct :
    P.Valid ∧ (Instr.mulc 7 1).WellFormed P.W ∧ (7 < P.NREG ∧ (mid.pc + 1).toNat < mid.prog.length) ∧
      (last.prog.length ≤ (last.pc + 1).toNat) ∧ P.NREG ≤ 8 ∧ (Instr.mulc 8 0).WellFormed P.W := by decide
theorem witness_SetCopiesTheRegister :
    P.Valid ∧ (Instr.set 7 7).WellFormed P.W ∧ (7 < P.NREG ∧ (mid.pc + 1).toNat < mid.prog.length) ∧
      (last.prog.length ≤ (last.pc + 1).toNat) ∧ P.NREG ≤ 8 ∧ (Instr.set 8 8).WellFormed P.W := by decide
theorem witness_SetcLoadsTheLiteral :
    P.Valid ∧ (Instr.setc 7 1).WellFormed P.W ∧ (7 < P.NREG ∧ (mid.pc + 1).toNat < mid.prog.length) ∧
      (last.prog.length ≤ (last.pc + 1).toNat) ∧ P.NREG ≤ 8 ∧ (Instr.setc 8 0).WellFormed P.W := by decide
theorem witness_EqSkipsWhenUnequal :
    P.Valid ∧ (Instr.eq 7 7).WellFormed P.W ∧ (7 < P.NREG ∧ (mid.pc + (if mid.regs[7] = mid.regs[7] then 1 else 2)).toNat < mid.prog.length) ∧
      (7 < P.NREG ∧ mid.prog.length ≤ (mid.pc + (if mid.regs[7] = mid.regs[0] then 1 else 2)).toNat) ∧
      P.NREG ≤ 8 ∧ (Instr.eq 8 8).WellFormed P.W := by decide
theorem witness_EqcSkipsWhenUnequal :
    P.Valid ∧ (Instr.eqc 7 7).WellFormed P.W ∧ (7 < P.NREG ∧ (mid.pc + (if mid.regs[7] = BitVec.ofNat P.W 1 then 1 else 2)).toNat < mid.prog.length) ∧
      (7 < P.NREG ∧ mid.prog.length ≤ (mid.pc + (if mid.regs[7] = BitVec.ofNat P.W 2 then 1 else 2)).toNat) ∧
      P.NREG ≤ 8 ∧ (Instr.eqc 8 2).WellFormed P.W := by decide
theorem witness_NopOnlyAdvances :
    P.Valid ∧ (mid.pc + 1).toNat < mid.prog.length ∧ last.prog.length ≤ (last.pc + 1).toNat ∧ mid.rst = false ∧ mid.status = .running ∧
      P.STEP_BUDGET ≠ some mid.steps ∧ mid.prog[mid.pc.toNat]? = some 0x0C0000000000000000#72 ∧
      decode (0x0C0000000000000000 : InstrWord 32) = .instr (.nop 0 0) := by decide

/-- `mid` and `last` with the strings of section 2.6 and register 6 at the last mapped address, a NUL -/
def midStrings : CoreState P := (CoreStateWith mid strings).setX 6 0x1004
def lastStrings : CoreState P := (CoreStateWith last strings).setX 6 0x1004

theorem witness_PrintAppendsTheString :
    P.Valid ∧ (Instr.print 0 7).WellFormed P.W ∧
      (midStrings.strmem.stringAt midStrings.regs[6] = some [] ∧ (midStrings.pc + 1).toNat < midStrings.prog.length) ∧
      (lastStrings.strmem.stringAt lastStrings.regs[6] = some [] ∧ lastStrings.prog.length ≤ (lastStrings.pc + 1).toNat) ∧
      midStrings.strmem.stringAt midStrings.regs[7] = none ∧ P.NREG ≤ 8 ∧ (Instr.print 0 8).WellFormed P.W := by decide
theorem witness_PrintcAppendsTheString :
    P.Valid ∧ (Instr.printc 0 0x1005).WellFormed P.W ∧
      (midStrings.strmem.stringAt (BitVec.ofNat P.W 0x1004) = some [] ∧ (midStrings.pc + 1).toNat < midStrings.prog.length) ∧
      (lastStrings.strmem.stringAt (BitVec.ofNat P.W 0x1004) = some [] ∧ lastStrings.prog.length ≤ (lastStrings.pc + 1).toNat) ∧
      midStrings.strmem.stringAt (BitVec.ofNat P.W 0x1005) = none := by decide

/-- the offset as the obligations write it -/
def offsetOf (d : Word 32) : Word 32 := if d.getLsbD 31 then d else d + 1

theorem witness_JmpMovesByTheRegister :
    P.Valid ∧ (Instr.jmp 0 7).WellFormed P.W ∧ (vm 15 [(7, 0xFFFFFFF1)]).regs[7] = 0xFFFFFFF1#32 ∧
      ((15#32 + offsetOf 0xFFFFFFF1).toNat < last.prog.length) ∧ (last.prog.length ≤ (15#32 + offsetOf 0).toNat) ∧
      mid.regs[0] = 0 ∧ P.NREG ≤ 8 ∧ (Instr.jmp 0 8).WellFormed P.W := by decide
theorem witness_JmpcMovesByTheLiteral :
    P.Valid ∧ (Instr.jmpc 0 0xFFFFFFF1).WellFormed P.W ∧ (last.pc + offsetOf 0xFFFFFFF1).toNat < last.prog.length ∧
      last.prog.length ≤ (last.pc + offsetOf 0).toNat ∧ (Instr.jmpc 0 0).WellFormed P.W ∧
      (vm 0 []).prog.length ≤ P.PROG_CAP ∧ (0xFFFFFFF1#32).getLsbD (P.W - 1) = true ∧ (vm 0 []).pc = 0 ∧
      (CoreState.initial P).prog.length = 1 ∧ (CoreState.initial P).pc = 0 := by decide
theorem witness_RetHaltsWithTheRegister :
    P.Valid ∧ (Instr.ret 0 7).WellFormed P.W ∧ 7 < P.NREG ∧ (Instr.ret 0 8).WellFormed P.W ∧ P.NREG ≤ 8 ∧
      0 < P.NREG ∧ P.STEP_BUDGET ≠ some 0 := by decide
theorem witness_RetcHaltsWithTheLiteral :
    (Instr.retc 0 0xFFFFFFFF).WellFormed P.W := by decide
theorem witness_DecodeEncodeAgree :
    ((0x120000000000000001 : InstrWord 32).toNat / 2 ^ (2 * 32)) % 2 ^ 8 ≤ 18 ∧ (Instr.retc 0 0xFFFFFFFF).WellFormed 32 := by decide
theorem witness_UnusedFieldsAreIgnored :
    opcodeNumber (.jmpc 1 3) = opcodeNumber (.jmpc 2 3) ∧ usesLhs (opcodeNumber (.jmpc 1 3)) = false ∧
      (Instr.jmpc 1 3).rhs = (Instr.jmpc 2 3).rhs ∧ opcodeNumber (.nop 1 2) = opcodeNumber (.nop 3 4) := by decide
theorem witness_PcUpdateReadingsAgree :
    P.Valid ∧ last.prog.length ≤ P.PROG_CAP ∧ last.pc.toNat < last.prog.length ∧
      (last.pc + jumpOffset 0xFFFFFFF1#32).toNat < last.prog.length ∧ (last.pc.toNat : Int) + signed 0xFFFFFFF0#32 < 0 := by decide
theorem witness_JumpsNeverHaltOrStay :
    8 ≤ 8 ∧ 0 ≤ signed (0x7F : Word 8) ∧ signed (0x80 : Word 8) < 0 := by decide
theorem witness_UnexpectedHaltIsUnreachable :
    P.Valid ∧ (∀ info, mid.outcome ≠ some (.error .unexpectedHaltOpcode info)) ∧
      ∃ c' : CoreState P, exec (.add 7 7) ⟨P, mid⟩ = .next ⟨P, c'⟩ :=
  by
  refine ⟨by decide, ?_, _, rfl⟩
  intro info h
  have none_at_mid : mid.outcome = none := rfl
  rw [none_at_mid] at h
  cases h
theorem witness_OpcodesRaiseWhatTheTableSays :
    P.Valid ∧ mid.status = .running ∧ canEndBy 18 .halt = true ∧
      ∃ c' : CoreState P, exec (.retc 0 5) ⟨P, mid⟩ = .next ⟨P, c'⟩ ∧ c'.status = .ended ∧ c'.outcome = some (.halted 5#32) :=
  ⟨by decide, by decide, by decide, _, rfl, rfl, rfl⟩
theorem witness_InstructionFrame : P.Valid := by decide
theorem witness_ErrorsArePrecise :
    P.Valid ∧ mid.status = .running ∧
      ∃ c' : CoreState P, exec (.retc 0 5) ⟨P, mid⟩ = .next ⟨P, c'⟩ ∧ c'.status = .ended ∧ c'.outcome = some (.halted 5#32) :=
  ⟨by decide, by decide, _, rfl, rfl, rfl⟩
/-- the landing slot of `add` in slot 15 exists in a program of 17: there it completes, with the same registers -/
theorem witness_ErrorsArePrecise_completes :
    16 < (List.replicate 17 (0x0C0000000000000000 : InstrWord 32)).length ∧
      seen (.add 7 7) last 7 = some (2, 16, some (2, 16), some 16) ∧
      seen (.add 7 7) { last with prog := List.replicate 17 (0x0C0000000000000000 : InstrWord 32) } 7 = some (2, 16, none, none) :=
  ⟨by decide, by decide, by decide⟩
/-- the errors of that statement: after the last slot, an index outside the file, a zero divisor, an unmapped string -/
theorem witness_ErrorsArePrecise_errors :
    last.status = .running ∧ mid.status = .running ∧
      (seen (.nop 0 0) last 0 = some (0, 16, some (2, 16), some 16)) ∧
      (seen (.add 8 0) mid 0 = some (0, 14, some (1, 8), some 14)) ∧
      (seen (.div 0 0) mid 0 = some (0, 14, some (3, 0), some 14)) ∧
      (seen (.printc 0 0x1005) mid 0 = some (0, 14, some (6, 0x1005), some 14)) := ⟨rfl, rfl, by decide, by decide, by decide, by decide⟩
theorem witness_RegisterFileContract :
    P.Valid ∧ (7#32).toNat < P.NREG ∧ P.NREG ≤ (8#32).toNat ∧
      ((Instr.set 8 0).WellFormed P.W ∧ usesLhs (opcodeNumber (.set 8 0)) = true ∧ P.NREG ≤ (Instr.set 8 0).lhs) ∧
      ((Instr.set 7 8).WellFormed P.W ∧ isRegisterForm (opcodeNumber (.set 7 8)) = true ∧ P.NREG ≤ (Instr.set 7 8).rhs ∧
        (Instr.set 7 8).lhs < P.NREG) := by decide
theorem witness_StepRunsTheDecodedInstruction :
    mid.rst = false ∧ mid.status = .running ∧ P.STEP_BUDGET ≠ some mid.steps ∧
      mid.prog[mid.pc.toNat]? = some 0x0C0000000000000000#72 ∧
      decode (0x0C0000000000000000 : InstrWord 32) = .instr (.nop 0 0) := by decide
theorem witness_PlacedWordRunsFirst :
    P.STEP_BUDGET ≠ some 0 ∧
      decode (BitVec.ofNat (8 + P.W + P.W) (0x12000000000000002A % 2 ^ 72)) = .instr (.retc 0 42) := by decide
theorem witness_SpentBudgetEndsTheRun :
    (budgeted 0).rst = false ∧ (budgeted 0).status = .running ∧
      ({ P with STEP_BUDGET := some 0 } : Params).STEP_BUDGET = some (budgeted 0).steps := by decide
theorem witness_ResetStateIsLegal : P.Valid := by decide
/-- a legal RUNNING state with budget 1 -/
theorem budgeted_legal : State.Inv ⟨_, budgeted 1⟩ := by
  refine ⟨by decide, ?_⟩
  constructor <;> simp [budgeted, CoreState.initial, Memory.wf]
  decide
theorem witness_StepKeepsLegalStates :
    State.Inv ⟨_, budgeted 1⟩ ∧ ∃ t, step ⟨_, budgeted 1⟩ = .next t := ⟨budgeted_legal, _, rfl⟩
theorem witness_LegalStatesNeverStop : State.Inv ⟨_, budgeted 1⟩ := budgeted_legal
theorem witness_BudgetedRunsEnd :
    State.Inv ⟨_, budgeted 1⟩ ∧ (budgeted 1).status = .running ∧ (budgeted 1).rst = false ∧
      ({ P with STEP_BUDGET := some 1 } : Params).STEP_BUDGET = some 1 := ⟨budgeted_legal, rfl, rfl, rfl⟩
theorem witness_ProgramIsConstantDuringARun :
    (∃ c' : CoreState P, exec (.nop 0 0) ⟨P, mid⟩ = .next ⟨P, c'⟩) ∧
      (mid.status = .running ∧ mid.rst = false ∧ ∃ c' : CoreState P, step ⟨P, mid⟩ = .next ⟨P, c'⟩) ∧
      ((CoreState.initial P).status ≠ .running ∧ (CoreState.initial P).rst = false ∧
        loadRejection P [0x120000000000000001] = none) :=
  ⟨⟨_, rfl⟩, ⟨rfl, rfl, _, rfl⟩, by decide⟩
theorem witness_OutputOnlyGrows :
    (midStrings.rst = false ∧ ∃ c' : CoreState P, step ⟨P, midStrings⟩ = .next ⟨P, c'⟩) ∧
      (CoreState.initial P).status ≠ .running := ⟨⟨rfl, _, rfl⟩, by decide⟩

/-- an idle machine to which the host presents `cmd` -/
def presented (cmd : HostCommand 32) : CoreState P := { CoreState.initial P with inbox := [cmd] }
/-- parameters with room for one instruction -/
def P1 : Params := { P with PROG_CAP := 1 }

theorem witness_LoadIsAllOrNothing :
    ((presented (.load [])).status ≠ .running ∧ (presented (.load [])).rst = false ∧
        (presented (.load [])).inbox = .load [] :: [] ∧ ([] : List (InstrWord 32)).length = 0) ∧
      ([0#72, 0#72].length ≠ 0 ∧ P1.PROG_CAP < [0#72, 0#72].length) ∧
      ([0#72, 0x130000000000000000#72].length ≤ P.PROG_CAP ∧ 19 ≤ (opcodeField (0x130000000000000000 : InstrWord 32)).toNat ∧
        (opcodeField (0 : InstrWord 32)).toNat ≤ 18) ∧
      ([0x120000000000000000#72].length ≤ P.PROG_CAP ∧ (opcodeField (0x120000000000000000 : InstrWord 32)).toNat ≤ 18) := by
  decide
theorem witness_RegGetAnswersTheRegister :
    (presented (.regGet 7)).status ≠ .running ∧ (presented (.regGet 7)).rst = false ∧
      (presented (.regGet 7)).inbox = .regGet 7 :: [] ∧ (7#32).toNat < P.NREG ∧
      (presented (.regGet 8)).inbox = .regGet 8 :: [] ∧ P.NREG ≤ (8#32).toNat := by decide
theorem witness_RegSetWritesTheRegister :
    (presented (.regSet 7 5)).status ≠ .running ∧ (presented (.regSet 7 5)).rst = false ∧
      (presented (.regSet 7 5)).inbox = .regSet 7 5 :: [] ∧ (7#32).toNat < P.NREG ∧
      (presented (.regSet 8 5)).inbox = .regSet 8 5 :: [] ∧ P.NREG ≤ (8#32).toNat := by decide
theorem witness_SuppliedStringsAreReadBack :
    (presented (.supplyStrmem [(7, 1), (0xFFFFFFFF, 2), (7, 4)])).status ≠ .running ∧
      (presented (.supplyStrmem [(7, 1), (0xFFFFFFFF, 2), (7, 4)])).rst = false ∧
      (presented (.supplyStrmem [(7, 1), (0xFFFFFFFF, 2), (7, 4)])).inbox = .supplyStrmem [(7, 1), (0xFFFFFFFF, 2), (7, 4)] :: [] ∧
      (Memory.ofCells [((7 : Word 32), 1), (0xFFFFFFFF, 2), (7, 4)]).read 7 = some 4 ∧
      (Memory.ofCells [((7 : Word 32), 1), (0xFFFFFFFF, 2), (7, 4)]).read 0xFFFFFFFF = some 2 ∧
      (Memory.ofCells [((7 : Word 32), 1), (0xFFFFFFFF, 2), (7, 4)]).read 0 = none := by decide
theorem witness_RunStartsAtSlotZero :
    (presented .run).status ≠ .running ∧ (presented .run).rst = false ∧ (presented .run).inbox = .run :: [] := by decide
theorem witness_ResetActsAtAnyTime : ({ mid with rst := true } : CoreState P).rst = true := rfl
theorem witness_TransactionsWaitWhileRunning :
    mid.status = .running ∧ mid.rst = false ∧ ∃ c' : CoreState P, step ⟨P, mid⟩ = .next ⟨P, c'⟩ := ⟨rfl, rfl, _, rfl⟩
theorem witness_HostCannotSeeThePc :
    (presented .run).status ≠ .running ∧
      ∃ c' : CoreState P, step ⟨P, presented .run⟩ = .next ⟨P, c'⟩ ∧ c'.status = .running := ⟨by decide, _, rfl, rfl⟩
theorem witness_IdleMachineStays :
    (CoreState.initial P).status ≠ .running ∧ (CoreState.initial P).rst = false ∧ (CoreState.initial P).inbox = [] := by decide
theorem witness_DisassemblyAssemblesBack :
    8 ≤ 32 ∧ (Instr.nop 1 2).WellFormed 32 ∧ (Instr.nop 3 4).WellFormed 32 ∧
      disassemble 32 (.nop 1 2) = disassemble 32 (.nop 3 4) ∧ clearUnused (.nop 1 2) = clearUnused (.nop 3 4) := by decide
theorem witness_LabelJumpsLandOnTheLabel :
    P.Valid ∧ last.prog.length ≤ P.PROG_CAP ∧ last.pc.toNat < last.prog.length ∧
      (0 < last.prog.length ∧ [("top", 0), ("here", 15)].lookup "top" = some 0 ∧ 0 ≠ last.pc.toNat) ∧
      (15 < last.prog.length ∧ [("top", 0), ("here", 15)].lookup "here" = some 15 ∧ 15 = last.pc.toNat) := by decide

end Sys2Proof.Tests
end

section
/-! SUPPORT. The register access contract (10_state.md rule R21): what a register read returns, after construction and after a write, and what
an index outside the file does to the host's accesses and to an instruction's. -/

namespace Sys2Proof.Machine

variable {p : Params}

/-- Construction leaves 0 in every register, and `x` answers 0 outside the file as well. -/
theorem CoreState.x_initial (i : Word p.W) : (CoreState.initial p).x i = 0 := by
  by_cases h : i.toNat < p.NREG
  · simp [CoreState.x_eq _ i h, CoreState.initial]
  · simp [CoreState.x, h]

/-- The read-over-write rule of the register file. -/
theorem CoreState.x_setX (c : CoreState p) (i v j : Word p.W) (h : i.toNat < p.NREG) :
    (c.setX i v).x j = if j = i then v else c.x j := by
  by_cases hji : j = i
  · subst hji
    simp [CoreState.x, h]
  · have hne : i.toNat ≠ j.toNat := fun he => hji (BitVec.eq_of_toNat_eq he.symm)
    simp [CoreState.x, hji, hne]

theorem CoreState.inFile_eq_false (c : CoreState p) {i : Word p.W} (h : p.NREG ≤ i.toNat) : c.inFile i = false := by
  simpa [CoreState.inFile] using h

theorem CoreState.regGet_outside (c : CoreState p) {i : Word p.W} (h : p.NREG ≤ i.toNat) :
    c.regGet i = { c with response := some (.error .outOfBoundsRegister i) } := by
  simp [CoreState.regGet, c.inFile_eq_false h]

theorem CoreState.regSet_outside (c : CoreState p) {i : Word p.W} (v : Word p.W) (h : p.NREG ≤ i.toNat) :
    c.regSet i v = { c with response := some (.error .outOfBoundsRegister i) } := by
  simp [CoreState.regSet, c.inFile_eq_false h]

/-- The run's end by an index outside the file, as `recorded` writes it: no result, and `fault_pc` the instruction's own slot. -/
theorem CoreState.endRun_outOfBoundsRegister (c : CoreState p) (i : Word p.W) :
    c.endRun (.error .outOfBoundsRegister i) = c.recorded (.error .outOfBoundsRegister i) none (some c.pc) :=
  c.endRun_eq_recorded _

/-- A well-formed operand field reads back as itself (30_encoding.md rule R72). -/
theorem toNat_ofNat_of_field {W n : Nat} (h : n < 2 ^ W) : (BitVec.ofNat W n).toNat = n := by
  rw [BitVec.toNat_ofNat, Nat.mod_eq_of_lt h]

/-- A used `lhs` outside the file ends the run before any effect, whatever the instruction. -/
theorem exec_lhs_outside (c : CoreState p) (i : Instr) (hu : usesLhs (opcodeNumber i) = true)
    (hl : p.NREG ≤ (BitVec.ofNat p.W i.lhs).toNat) :
    exec i ⟨p, c⟩ =
      .next ⟨p, c.recorded (.error .outOfBoundsRegister (BitVec.ofNat p.W i.lhs)) none (some c.pc)⟩ := by
  obtain ⟨form, handler, hexec, -, -⟩ := exec_shape c i
  rw [hexec, hu, c.issue_lhs_outside hl, c.endRun_outOfBoundsRegister]

/-- A register form's `rhs` outside the file ends the run before any effect, once `lhs` has passed its check
(60_exceptions.md rule R186). -/
theorem exec_rhs_outside (c : CoreState p) (i : Instr) (hform : isRegisterForm (opcodeNumber i) = true)
    (hl : usesLhs (opcodeNumber i) = true → (BitVec.ofNat p.W i.lhs).toNat < p.NREG)
    (hr : p.NREG ≤ (BitVec.ofNat p.W i.rhs).toNat) :
    exec i ⟨p, c⟩ =
      .next ⟨p, c.recorded (.error .outOfBoundsRegister (BitVec.ofNat p.W i.rhs)) none (some c.pc)⟩ := by
  obtain ⟨form, handler, hexec, hregister, -⟩ := exec_shape c i
  obtain rfl : form = .register := hregister.2 hform
  rw [hexec, c.issue_rhs_outside hl hr, c.endRun_outOfBoundsRegister]

/-- Settles O31: the read-over-write rule of the file, the host's bounds checks, and the bounds checks of an instruction's issue. -/
theorem registerFileContract : Obligations.RegisterFileContract := by
  intro p c _
  refine ⟨CoreState.x_initial, fun i v j h => c.x_setX i v j h, fun i v h => ⟨c.regGet_outside h, c.regSet_outside v h⟩, ?_, ?_⟩
  · intro i ⟨hlhs, _⟩ hu hl
    exact exec_lhs_outside c i hu (by rwa [toNat_ofNat_of_field hlhs])
  · intro i ⟨hlhs, hrhs⟩ hform hr hl
    exact exec_rhs_outside c i hform (by rwa [toNat_ofNat_of_field hlhs]) (by rwa [toNat_ofNat_of_field hrhs])

end Sys2Proof.Machine
end

section
/-! SUPPORT. Instruction-fetch coherence (20_memory.md rule R59): no operation of an instruction writes the program store, so no step of a run
does, and an accepted Load replaces the store whole. Nothing here asks for legal parameters, so the sequencer's case of an unexpected halt,
possible at a width below 8, is covered as well. -/

namespace Sys2Proof.Machine

variable {p : Params}

@[simp] theorem CoreState.advance_prog (c : CoreState p) (off : Word p.W) : (c.advance off).prog = c.prog := by
  rcases c.advance_cases off with ⟨_, h⟩ | ⟨_, h⟩ <;> simp [h]

/-- A handler's effect is on the registers, the output or nothing. -/
theorem HandlerDoes.effect_prog {c c' : CoreState p} {n : Nat} {lhs opv off : Word p.W}
    (h : HandlerDoes c n lhs opv (.effect c' off)) : c'.prog = c.prog := by
  cases h with
  | writes v _ => exact c.setX_prog _ v
  | moves _ _ _ => rfl
  | prints bytes _ _ => exact c.append_prog bytes
  | halts _ => rfl

/-- The sequencer keeps the program store where the handler's effect does. -/
theorem CoreState.sequence_prog {c : CoreState p} {haltOpcode : Bool} {opv : Word p.W} {r : HandlerResult p}
    (hr : ∀ c' off, r = .effect c' off → c'.prog = c.prog) : (c.sequence haltOpcode opv r).prog = c.prog := by
  rcases c.sequence_cases haltOpcode opv r with
    ⟨o, _, h⟩ | ⟨c', off, heffect, ⟨_, _, h⟩ | ⟨_, _, h⟩ | ⟨_, h⟩⟩
  · rw [h, CoreState.endRun_prog]
  · rw [h, CoreState.endRun_prog, hr c' off heffect]
  · rw [h, CoreState.endRun_prog, hr c' off heffect]
  · rw [h, CoreState.advance_prog, hr c' off heffect]

/-- The issue of an instruction keeps the program store where its handler's effect does. -/
theorem CoreState.issue_prog {c : CoreState p} {usesLhs : Bool} {form : Form} {haltOpcode : Bool} {lhs rhs : Word p.W}
    {handler : CoreState p → Word p.W → Word p.W → HandlerResult p}
    (hhandler : ∀ opv c' off, handler c lhs opv = .effect c' off → c'.prog = c.prog) :
    (c.issue usesLhs form haltOpcode lhs rhs handler).prog = c.prog := by
  rcases c.issue_cases usesLhs form haltOpcode lhs rhs handler with ⟨_, _, h⟩ | ⟨_, ⟨_, _, h⟩ | ⟨opv, _, h⟩⟩
  · rw [h, CoreState.endRun_prog]
  · rw [h, CoreState.endRun_prog]
  · rw [h, CoreState.sequence_prog (hhandler opv)]

/-- No instruction writes the program store, at any width and with any fields. -/
theorem exec_keeps_prog {c c' : CoreState p} {i : Instr} (h : exec i ⟨p, c⟩ = .next ⟨p, c'⟩) : c'.prog = c.prog := by
  obtain ⟨form, handler, hexec, -, hdoes⟩ := exec_shape c i
  rw [hexec] at h
  cases h
  refine CoreState.issue_prog fun opv c' off heffect => ?_
  have hd := hdoes c (BitVec.ofNat p.W i.lhs) opv
  rw [heffect] at hd
  exact hd.effect_prog

/-- A pass of the run loop keeps the program store: it ends the run, or executes an instruction. -/
theorem State.runStep_keeps_prog {c c' : CoreState p} (h : State.runStep ⟨p, c⟩ = .next ⟨p, c'⟩) : c'.prog = c.prog := by
  rcases State.runStep_cases c with ⟨_, hr⟩ | ⟨_, ⟨_, hr⟩ | ⟨w, _, ⟨i, _, hr⟩ | ⟨_, hr⟩⟩⟩ <;> rw [hr] at h
  case inl => cases h; exact c.endRun_prog _
  case inr.inl => cases h
  case inr.inr.inl => exact (exec_keeps_prog h).trans c.countStep_prog
  case inr.inr.inr => cases h

theorem step_running {c : CoreState p} (hs : c.status = .running) (hr : c.rst = false) :
    step ⟨p, c⟩ = State.runStep ⟨p, c⟩ := by
  simp [step, State.cycle, hs, hr]

theorem step_stopped {c : CoreState p} (hs : c.status ≠ .running) (hr : c.rst = false) :
    step ⟨p, c⟩ = .next ⟨p, c.hostStep⟩ := by
  simp [step, State.cycle, hs, hr]

/-- A Load that passes its checks, as the next transaction, replaces the program store whole (47_host_operations.md rule R162). -/
theorem CoreState.hostStep_load_accepted {c : CoreState p} {ws : List (InstrWord p.W)} {later : List (HostCommand p.W)}
    (hi : c.inbox = .load ws :: later) (hok : loadRejection p ws = none) :
    c.hostStep = { c with inbox := later, prog := ws, response := some .ok } := by
  simp only [CoreState.hostStep, hi, CoreState.perform, CoreState.load, hok]

/-- Settles O39: the instructions, the steps of a run and the accepted Load, each by its own lemma. -/
theorem programIsConstantDuringARun : Obligations.ProgramIsConstantDuringARun := by
  refine ⟨fun p c c' i h => exec_keeps_prog h, fun p c c' hs hr h => ?_, fun p c ws later hs hr hi hok => ?_⟩
  · rw [step_running hs hr] at h
    exact State.runStep_keeps_prog h
  · exact ⟨_, step_stopped hs hr, by rw [CoreState.hostStep_load_accepted hi hok]⟩

end Sys2Proof.Machine
end

section
/-! SUPPORT. The arithmetic instructions (41_arithmetic.md): the four ALU functions on the numbers of their operands, the issue of the two
handlers `arithmetic` and `division`, and the write of `x[lhs]` followed by the advance. The four opcodes of each form share these rules. -/

namespace Sys2Proof.Machine

variable {p : Params}

/-! The ALU functions as the spec writes them, on numbers (41_arithmetic.md rule R120). -/

theorem aluAdd_eq_ofNat {W : Nat} (a b : Word W) : aluAdd a b = BitVec.ofNat W (a.toNat + b.toNat) := by
  simp [aluAdd, BitVec.ofNat_add]

theorem aluMul_eq_ofNat {W : Nat} (a b : Word W) : aluMul a b = BitVec.ofNat W (a.toNat * b.toNat) := by
  simp [aluMul, BitVec.ofNat_mul]

theorem aluDiv_eq_ofNat {W : Nat} (a b : Word W) : aluDiv a b = BitVec.ofNat W (a.toNat / b.toNat) :=
  BitVec.udiv_def

theorem aluMod_eq_ofNat {W : Nat} (a b : Word W) :
    aluMod a b = BitVec.ofNat W (a.toNat - b.toNat * (a.toNat / b.toNat)) := by
  rw [← Nat.mod_def]
  exact BitVec.umod_def

/-- A literal that fits its field is the zero Word exactly when it is 0. -/
theorem ofNat_field_eq_zero_iff {W n : Nat} (h : n < 2 ^ W) : BitVec.ofNat W n = 0 ↔ n = 0 := by
  rw [← BitVec.toNat_inj, toNat_ofNat_of_field h]
  simp

/-- The opcode field of an encoding, as the bits of the word (30_encoding.md rule R72). -/
theorem encode_opcode_bits (W : Nat) (i : Instr) :
    (encode W i).extractLsb' (W + W) 8 = BitVec.ofNat 8 (opcodeNumber i) := by
  obtain ⟨hopcode, -, -⟩ := encode_fields W i
  calc opcodeField (encode W i) = BitVec.ofNat 8 (opcodeField (encode W i)).toNat := by simp
    _ = BitVec.ofNat 8 (opcodeNumber i) := by rw [hopcode]

/-! Register access by a field of the instruction, a number below `NREG`: every register of a legal machine has a field that names it. -/

theorem nreg_le_two_pow (hp : p.Valid) : p.NREG ≤ 2 ^ p.W := by
  obtain ⟨-, -, hN, -, -⟩ := hp
  exact hN

theorem ofNat_lt_nreg (hp : p.Valid) {n : Nat} (h : n < p.NREG) : (BitVec.ofNat p.W n).toNat < p.NREG :=
  (toNat_ofNat_of_lt_nreg (nreg_le_two_pow hp) h).trans_lt h

theorem CoreState.x_field (c : CoreState p) (hp : p.Valid) {n : Nat} (h : n < p.NREG) :
    c.x (BitVec.ofNat p.W n) = c.regs[n] := by
  simp only [c.x_eq _ (ofNat_lt_nreg hp h), toNat_ofNat_of_lt_nreg (nreg_le_two_pow hp) h]

theorem CoreState.operand_field (c : CoreState p) (hp : p.Valid) {n : Nat} (h : n < p.NREG) :
    c.operand .register (BitVec.ofNat p.W n) = some c.regs[n] := by
  simp only [c.operand_register (ofNat_lt_nreg hp h), toNat_ofNat_of_lt_nreg (nreg_le_two_pow hp) h]

theorem CoreState.setX_field (c : CoreState p) (hp : p.Valid) {n : Nat} (h : n < p.NREG) (v : Word p.W) :
    c.setX (BitVec.ofNat p.W n) v = { c with regs := c.regs.set n v h } := by
  simp only [c.setX_eq _ v (ofNat_lt_nreg hp h), toNat_ofNat_of_lt_nreg (nreg_le_two_pow hp) h]

/-! The two handlers between the operand checks and the sequencer. -/

/-- An offset that is not 0 advances the pc of the state that the handler leaves (40_dispatch_and_sequencer.md rule R104). -/
theorem CoreState.sequence_effect (c c' : CoreState p) {off : Word p.W} (h : off ≠ 0) (haltOpcode : Bool) (opv : Word p.W) :
    c.sequence haltOpcode opv (.effect c' off) = c'.advance off := if_neg h

theorem division_of_ne_zero (op : Word p.W → Word p.W → Word p.W) (info : Word p.W) (c : CoreState p) (lhs : Word p.W)
    {opv : Word p.W} (h : opv ≠ 0) : division op info c lhs opv = arithmetic op c lhs opv := if_neg h

theorem division_by_zero (op : Word p.W → Word p.W → Word p.W) (info : Word p.W) (c : CoreState p) (lhs : Word p.W) :
    division op info c lhs 0 = .stop (.error .divisionByZero info) := if_pos rfl

section issue
variable {c : CoreState p} {form : Form} {l : Nat} {rhs opv : Word p.W} {op : Word p.W → Word p.W → Word p.W}

/-- A handler that writes `v` to `x[l]`, with `l` in the file and an operand value: the write, then the advance by one. -/
theorem CoreState.issue_writes {handler : CoreState p → Word p.W → Word p.W → HandlerResult p} {v : Word p.W} (hp : p.Valid)
    (hl : l < p.NREG) (ho : c.operand form rhs = some opv)
    (hh : handler c (BitVec.ofNat p.W l) opv = .effect (c.setX (BitVec.ofNat p.W l) v) 1) :
    c.issue true form false (BitVec.ofNat p.W l) rhs handler = (c.setX (BitVec.ofNat p.W l) v).advance 1 := by
  have ⟨hW, _⟩ := hp
  rw [c.issue_runs (fun _ => ofNat_lt_nreg hp hl) ho, hh, c.sequence_effect _ (one_ne_zero_word hW)]

theorem CoreState.issue_arithmetic (hp : p.Valid) (hl : l < p.NREG) (ho : c.operand form rhs = some opv) :
    c.issue true form false (BitVec.ofNat p.W l) rhs (arithmetic op) =
      (c.setX (BitVec.ofNat p.W l) (op c.regs[l] opv)).advance 1 :=
  CoreState.issue_writes hp hl ho (by rw [arithmetic, c.x_field hp hl])

/-- A divisor that is not 0 lets the division write as any other arithmetic handler does. -/
theorem CoreState.issue_division {info : Word p.W} (hp : p.Valid) (hl : l < p.NREG) (ho : c.operand form rhs = some opv)
    (h0 : opv ≠ 0) :
    c.issue true form false (BitVec.ofNat p.W l) rhs (division op info) =
      (c.setX (BitVec.ofNat p.W l) (op c.regs[l] opv)).advance 1 :=
  CoreState.issue_writes hp hl ho (by rw [division_of_ne_zero op info c _ h0, arithmetic, c.x_field hp hl])

/-- A zero divisor ends the run before any write (41_arithmetic.md rule R129). -/
theorem CoreState.issue_division_by_zero {info : Word p.W} (hp : p.Valid) (hl : l < p.NREG)
    (ho : c.operand form rhs = some 0) :
    c.issue true form false (BitVec.ofNat p.W l) rhs (division op info) =
      c.recorded (.error .divisionByZero info) none (some c.pc) := by
  rw [c.issue_runs (fun _ => ofNat_lt_nreg hp hl) ho, division_by_zero]
  exact c.endRun_eq_recorded _

end issue

/-! What an instruction that writes `x[l]` and advances by one leaves, the whole next state given. -/

section write
variable {c : CoreState p} {i : Instr} {l : Nat} {v : Word p.W}

theorem exec_write_completes (hp : p.Valid) (hl : l < p.NREG)
    (hexec : exec i ⟨p, c⟩ = .next ⟨p, (c.setX (BitVec.ofNat p.W l) v).advance 1⟩)
    (hin : (c.pc + 1).toNat < c.prog.length) :
    exec i ⟨p, c⟩ = .next ⟨p, { c with regs := c.regs.set l v hl, pc := c.pc + 1 }⟩ := by
  rw [hexec, CoreState.advance_inside (c.setX _ v) hin, c.setX_field hp hl]
  rfl

/-- The advance out of the program ends the run with the write standing (60_exceptions.md rule R188). -/
theorem exec_write_leaves_program (hp : p.Valid) (hl : l < p.NREG)
    (hexec : exec i ⟨p, c⟩ = .next ⟨p, (c.setX (BitVec.ofNat p.W l) v).advance 1⟩)
    (hout : c.prog.length ≤ (c.pc + 1).toNat) :
    exec i ⟨p, c⟩ =
      .next ⟨p, ({ c with regs := c.regs.set l v hl, pc := c.pc + 1 } : CoreState p).recorded
        (.error .outOfBoundsProgramCounter (c.pc + 1)) none (some (c.pc + 1))⟩ := by
  rw [hexec, CoreState.advance_outside (c.setX _ v) hout, c.setX_field hp hl]
  rfl

end write

/-! Each opcode's write, the value as its rule writes it. -/

section values
variable {c : CoreState p} {l r : Nat}

theorem exec_add_writes (hp : p.Valid) (hl : l < p.NREG) (hr : r < p.NREG) :
    exec (.add l r) ⟨p, c⟩ =
      .next ⟨p, (c.setX (BitVec.ofNat p.W l) (BitVec.ofNat p.W (c.regs[l].toNat + c.regs[r].toNat))).advance 1⟩ := by
  rw [exec_add_eq, CoreState.issue_arithmetic hp hl (c.operand_field hp hr), aluAdd_eq_ofNat]

theorem exec_addc_writes (hp : p.Valid) (hl : l < p.NREG) (hr : r < 2 ^ p.W) :
    exec (.addc l r) ⟨p, c⟩ =
      .next ⟨p, (c.setX (BitVec.ofNat p.W l) (BitVec.ofNat p.W (c.regs[l].toNat + r))).advance 1⟩ := by
  rw [exec_addc_eq, CoreState.issue_arithmetic hp hl (c.operand_immediate _), aluAdd_eq_ofNat,
    toNat_ofNat_of_field hr]

theorem exec_div_writes (hp : p.Valid) (hl : l < p.NREG) (hr : r < p.NREG) (h0 : c.regs[r] ≠ 0) :
    exec (.div l r) ⟨p, c⟩ =
      .next ⟨p, (c.setX (BitVec.ofNat p.W l) (BitVec.ofNat p.W (c.regs[l].toNat / c.regs[r].toNat))).advance 1⟩ := by
  rw [exec_div_eq, CoreState.issue_division hp hl (c.operand_field hp hr) h0, aluDiv_eq_ofNat]

theorem exec_divc_writes (hp : p.Valid) (hl : l < p.NREG) (hr : r < 2 ^ p.W) (h0 : r ≠ 0) :
    exec (.divc l r) ⟨p, c⟩ =
      .next ⟨p, (c.setX (BitVec.ofNat p.W l) (BitVec.ofNat p.W (c.regs[l].toNat / r))).advance 1⟩ := by
  rw [exec_divc_eq, CoreState.issue_division hp hl (c.operand_immediate _) (mt (ofNat_field_eq_zero_iff hr).1 h0),
    aluDiv_eq_ofNat, toNat_ofNat_of_field hr]

theorem exec_mod_writes (hp : p.Valid) (hl : l < p.NREG) (hr : r < p.NREG) (h0 : c.regs[r] ≠ 0) :
    exec (.mod l r) ⟨p, c⟩ =
      .next ⟨p, (c.setX (BitVec.ofNat p.W l)
        (BitVec.ofNat p.W (c.regs[l].toNat - c.regs[r].toNat * (c.regs[l].toNat / c.regs[r].toNat)))).advance 1⟩ := by
  rw [exec_mod_eq, CoreState.issue_division hp hl (c.operand_field hp hr) h0, aluMod_eq_ofNat]

theorem exec_modc_writes (hp : p.Valid) (hl : l < p.NREG) (hr : r < 2 ^ p.W) (h0 : r ≠ 0) :
    exec (.modc l r) ⟨p, c⟩ =
      .next ⟨p, (c.setX (BitVec.ofNat p.W l) (BitVec.ofNat p.W (c.regs[l].toNat - r * (c.regs[l].toNat / r)))).advance 1⟩ := by
  rw [exec_modc_eq, CoreState.issue_division hp hl (c.operand_immediate _) (mt (ofNat_field_eq_zero_iff hr).1 h0),
    aluMod_eq_ofNat, toNat_ofNat_of_field hr]

theorem exec_mul_writes (hp : p.Valid) (hl : l < p.NREG) (hr : r < p.NREG) :
    exec (.mul l r) ⟨p, c⟩ =
      .next ⟨p, (c.setX (BitVec.ofNat p.W l) (BitVec.ofNat p.W (c.regs[l].toNat * c.regs[r].toNat))).advance 1⟩ := by
  rw [exec_mul_eq, CoreState.issue_arithmetic hp hl (c.operand_field hp hr), aluMul_eq_ofNat]

theorem exec_mulc_writes (hp : p.Valid) (hl : l < p.NREG) (hr : r < 2 ^ p.W) :
    exec (.mulc l r) ⟨p, c⟩ =
      .next ⟨p, (c.setX (BitVec.ofNat p.W l) (BitVec.ofNat p.W (c.regs[l].toNat * r))).advance 1⟩ := by
  rw [exec_mulc_eq, CoreState.issue_arithmetic hp hl (c.operand_immediate _), aluMul_eq_ofNat,
    toNat_ofNat_of_field hr]

end values

/-- Settles O5: the register form of the write; an index outside the file by the register access contract. -/
theorem addWritesTheSum : Obligations.AddWritesTheSum := by
  intro p c l r hp hw
  obtain ⟨-, -, -, hlhs, hrhs⟩ := registerFileContract p c hp
  exact ⟨encode_opcode_bits p.W (.add l r),
    fun hl hr => exec_write_completes hp hl (exec_add_writes hp hl hr),
    fun hl hr => exec_write_leaves_program hp hl (exec_add_writes hp hl hr),
    fun hl hr => hrhs (.add l r) hw rfl hr fun _ => hl,
    hlhs (.add l r) hw rfl⟩

/-- Settles O6: the immediate form, whose literal is never checked against the file. -/
theorem addcWritesTheSum : Obligations.AddcWritesTheSum := by
  intro p c l r hp hw
  obtain ⟨-, -, -, hlhs, -⟩ := registerFileContract p c hp
  have ⟨_, hr⟩ := hw
  exact ⟨encode_opcode_bits p.W (.addc l r),
    fun hl => exec_write_completes hp hl (exec_addc_writes hp hl hr),
    fun hl => exec_write_leaves_program hp hl (exec_addc_writes hp hl hr),
    hlhs (.addc l r) hw rfl⟩

/-- Settles O7: the register form of the write, with a divisor that is not 0; a zero divisor ends the run with the `rhs` field; an index
outside the file by the register access contract. -/
theorem divWritesTheQuotient : Obligations.DivWritesTheQuotient := by
  intro p c l r hp hw
  obtain ⟨-, -, -, hlhs, hrhs⟩ := registerFileContract p c hp
  exact ⟨encode_opcode_bits p.W (.div l r),
    fun hl hr h0 => exec_write_completes hp hl (exec_div_writes hp hl hr h0),
    fun hl hr h0 => exec_write_leaves_program hp hl (exec_div_writes hp hl hr h0),
    fun hl hr h0 => by rw [exec_div_eq, CoreState.issue_division_by_zero hp hl (h0 ▸ c.operand_field hp hr)],
    fun hl hr => hrhs (.div l r) hw rfl hr fun _ => hl,
    hlhs (.div l r) hw rfl⟩

/-- Settles O8: the immediate form; a literal 0 is the one zero divisor, and its error carries 0 (41_arithmetic.md rule R129). -/
theorem divcWritesTheQuotient : Obligations.DivcWritesTheQuotient := by
  intro p c l r hp hw
  obtain ⟨-, -, -, hlhs, -⟩ := registerFileContract p c hp
  have ⟨_, hr⟩ := hw
  exact ⟨encode_opcode_bits p.W (.divc l r),
    fun hl h0 => exec_write_completes hp hl (exec_divc_writes hp hl hr h0),
    fun hl h0 => exec_write_leaves_program hp hl (exec_divc_writes hp hl hr h0),
    fun hl h0 => by rw [exec_divc_eq, CoreState.issue_division_by_zero hp hl (h0 ▸ c.operand_immediate _)],
    hlhs (.divc l r) hw rfl⟩

/-- Settles O9: the register form of the write, with a divisor that is not 0; a zero divisor ends the run with the `rhs` field; an index
outside the file by the register access contract. -/
theorem modWritesTheRemainder : Obligations.ModWritesTheRemainder := by
  intro p c l r hp hw
  obtain ⟨-, -, -, hlhs, hrhs⟩ := registerFileContract p c hp
  exact ⟨encode_opcode_bits p.W (.mod l r),
    fun hl hr h0 => exec_write_completes hp hl (exec_mod_writes hp hl hr h0),
    fun hl hr h0 => exec_write_leaves_program hp hl (exec_mod_writes hp hl hr h0),
    fun hl hr h0 => by rw [exec_mod_eq, CoreState.issue_division_by_zero hp hl (h0 ▸ c.operand_field hp hr)],
    fun hl hr => hrhs (.mod l r) hw rfl hr fun _ => hl,
    hlhs (.mod l r) hw rfl⟩

/-- Settles O10: the immediate form; a literal 0 is the one zero divisor, and its error carries 0 (41_arithmetic.md rule R129). -/
theorem modcWritesTheRemainder : Obligations.ModcWritesTheRemainder := by
  intro p c l r hp hw
  obtain ⟨-, -, -, hlhs, -⟩ := registerFileContract p c hp
  have ⟨_, hr⟩ := hw
  exact ⟨encode_opcode_bits p.W (.modc l r),
    fun hl h0 => exec_write_completes hp hl (exec_modc_writes hp hl hr h0),
    fun hl h0 => exec_write_leaves_program hp hl (exec_modc_writes hp hl hr h0),
    fun hl h0 => by rw [exec_modc_eq, CoreState.issue_division_by_zero hp hl (h0 ▸ c.operand_immediate _)],
    hlhs (.modc l r) hw rfl⟩

/-- Settles O11: the register form of the write; an index outside the file by the register access contract. -/
theorem mulWritesTheProduct : Obligations.MulWritesTheProduct := by
  intro p c l r hp hw
  obtain ⟨-, -, -, hlhs, hrhs⟩ := registerFileContract p c hp
  exact ⟨encode_opcode_bits p.W (.mul l r),
    fun hl hr => exec_write_completes hp hl (exec_mul_writes hp hl hr),
    fun hl hr => exec_write_leaves_program hp hl (exec_mul_writes hp hl hr),
    fun hl hr => hrhs (.mul l r) hw rfl hr fun _ => hl,
    hlhs (.mul l r) hw rfl⟩

/-- Settles O12: the immediate form, whose literal is never checked against the file. -/
theorem mulcWritesTheProduct : Obligations.MulcWritesTheProduct := by
  intro p c l r hp hw
  obtain ⟨-, -, -, hlhs, -⟩ := registerFileContract p c hp
  have ⟨_, hr⟩ := hw
  exact ⟨encode_opcode_bits p.W (.mulc l r),
    fun hl => exec_write_completes hp hl (exec_mulc_writes hp hl hr),
    fun hl => exec_write_leaves_program hp hl (exec_mulc_writes hp hl hr),
    hlhs (.mulc l r) hw rfl⟩

end Sys2Proof.Machine
end

section
/-! SUPPORT. The assignment instructions (42_assignment.md): the issue of the handler `assignment`, whose written value is the operand value
itself, and the write of each of the two forms. The advance after the write is that of the arithmetic instructions. -/

namespace Sys2Proof.Machine

variable {p : Params}

section assign
variable {c : CoreState p} {l r : Nat}

/-- An assignment writes the operand value; the old value of `x[l]` has no part in it (42_assignment.md rule R130). -/
theorem CoreState.issue_assignment {form : Form} {rhs opv : Word p.W} (hp : p.Valid) (hl : l < p.NREG)
    (ho : c.operand form rhs = some opv) :
    c.issue true form false (BitVec.ofNat p.W l) rhs assignment = (c.setX (BitVec.ofNat p.W l) opv).advance 1 :=
  CoreState.issue_writes hp hl ho rfl

theorem exec_set_writes (hp : p.Valid) (hl : l < p.NREG) (hr : r < p.NREG) :
    exec (.set l r) ⟨p, c⟩ = .next ⟨p, (c.setX (BitVec.ofNat p.W l) c.regs[r]).advance 1⟩ := by
  rw [exec_set_eq, CoreState.issue_assignment hp hl (c.operand_field hp hr)]

theorem exec_setc_writes (hp : p.Valid) (hl : l < p.NREG) :
    exec (.setc l r) ⟨p, c⟩ = .next ⟨p, (c.setX (BitVec.ofNat p.W l) (BitVec.ofNat p.W r)).advance 1⟩ := by
  rw [exec_setc_eq, CoreState.issue_assignment hp hl (c.operand_immediate _)]

end assign

/-- Settles O13: the register form of the write; an index outside the file by the register access contract. -/
theorem setCopiesTheRegister : Obligations.SetCopiesTheRegister := by
  intro p c l r hp hw
  obtain ⟨-, -, -, hlhs, hrhs⟩ := registerFileContract p c hp
  exact ⟨encode_opcode_bits p.W (.set l r),
    fun hl hr => exec_write_completes hp hl (exec_set_writes hp hl hr),
    fun hl hr => exec_write_leaves_program hp hl (exec_set_writes hp hl hr),
    fun hl hr => hrhs (.set l r) hw rfl hr fun _ => hl,
    hlhs (.set l r) hw rfl⟩

/-- Settles O14: the immediate form, whose literal is written as it stands and never checked against the file. -/
theorem setcLoadsTheLiteral : Obligations.SetcLoadsTheLiteral := by
  intro p c l r hp hw
  obtain ⟨-, -, -, hlhs, -⟩ := registerFileContract p c hp
  exact ⟨encode_opcode_bits p.W (.setc l r),
    fun hl => exec_write_completes hp hl (exec_setc_writes hp hl),
    fun hl => exec_write_leaves_program hp hl (exec_setc_writes hp hl),
    hlhs (.setc l r) hw rfl⟩

end Sys2Proof.Machine
end

section
/-! SUPPORT. Compare-and-skip and no-operation (43_compare_skip_nop.md): the issue of a handler that does nothing but choose an offset, the
two ends of such an advance, the offset of each instruction, and the pass of the run loop that fetches it. -/

namespace Sys2Proof.Machine

variable {p : Params}

/-! What an instruction that only moves the pc leaves, the whole next state given. -/

section move
variable {c : CoreState p} {i : Instr} {off : Word p.W}

/-- A handler that only chooses an offset, with its operands resolved: the advance by that offset. -/
theorem CoreState.issue_moves {usesLhs : Bool} {form : Form} {lhs rhs opv : Word p.W}
    {handler : CoreState p → Word p.W → Word p.W → HandlerResult p} (hl : usesLhs = true → lhs.toNat < p.NREG)
    (ho : c.operand form rhs = some opv) (hh : handler c lhs opv = .effect c off) (h0 : off ≠ 0) :
    c.issue usesLhs form false lhs rhs handler = c.advance off := by
  rw [c.issue_runs hl ho, hh, c.sequence_effect c h0]

theorem exec_move_completes (hexec : exec i ⟨p, c⟩ = .next ⟨p, c.advance off⟩)
    (hin : (c.pc + off).toNat < c.prog.length) :
    exec i ⟨p, c⟩ = .next ⟨p, { c with pc := c.pc + off }⟩ := by
  rw [hexec, c.advance_inside hin, CoreState.setPc]

/-- The advance out of the program ends the run at the slot it did not find (60_exceptions.md rule R188). -/
theorem exec_move_leaves_program (hexec : exec i ⟨p, c⟩ = .next ⟨p, c.advance off⟩)
    (hout : c.prog.length ≤ (c.pc + off).toNat) :
    exec i ⟨p, c⟩ =
      .next ⟨p, ({ c with pc := c.pc + off } : CoreState p).recorded
        (.error .outOfBoundsProgramCounter (c.pc + off)) none (some (c.pc + off))⟩ := by
  rw [hexec, c.advance_outside hout, CoreState.endRun_eq_recorded]
  rfl

end move

/-! The offset of each instruction. -/

section offsets
variable {c : CoreState p} {l r : Nat}

/-- A compare advances by 1 where `x[l]` equals the operand value and by 2 where it does not (43_compare_skip_nop.md rule R134). -/
theorem CoreState.issue_compareSkip {form : Form} {rhs opv : Word p.W} (hp : p.Valid) (hl : l < p.NREG)
    (ho : c.operand form rhs = some opv) :
    c.issue true form false (BitVec.ofNat p.W l) rhs compareSkip = c.advance (if c.regs[l] = opv then 1 else 2) := by
  have ⟨hW, _⟩ := hp
  exact CoreState.issue_moves (fun _ => ofNat_lt_nreg hp hl) ho (by rw [compareSkip, c.x_field hp hl, compareOffset])
    (compareOffset_ne_zero hW _ _)

theorem exec_eq_moves (hp : p.Valid) (hl : l < p.NREG) (hr : r < p.NREG) :
    exec (.eq l r) ⟨p, c⟩ = .next ⟨p, c.advance (if c.regs[l] = c.regs[r] then 1 else 2)⟩ := by
  rw [exec_eq_eq, CoreState.issue_compareSkip hp hl (c.operand_field hp hr)]

theorem exec_eqc_moves (hp : p.Valid) (hl : l < p.NREG) :
    exec (.eqc l r) ⟨p, c⟩ = .next ⟨p, c.advance (if c.regs[l] = BitVec.ofNat p.W r then 1 else 2)⟩ := by
  rw [exec_eqc_eq, CoreState.issue_compareSkip hp hl (c.operand_immediate _)]

/-- No field of a `nop` is resolved, so none has a bound (43_compare_skip_nop.md rule R137). -/
theorem exec_nop_moves (hp : p.Valid) : exec (.nop l r) ⟨p, c⟩ = .next ⟨p, c.advance 1⟩ := by
  have ⟨hW, _⟩ := hp
  rw [exec_nop_eq, CoreState.issue_moves (fun h => absurd h Bool.false_ne_true) rfl rfl (one_ne_zero_word hW)]

end offsets

/-- A pass of the run loop with budget left counts one step and executes the instruction it fetches
(40_dispatch_and_sequencer.md rule R100). -/
theorem step_executes_fetched {c : CoreState p} {i : Instr} {w : InstrWord p.W} (hr : c.rst = false) (hs : c.status = .running)
    (hb : p.STEP_BUDGET ≠ some c.steps) (hf : c.prog[c.pc.toNat]? = some w) (hd : decode w = .instr i) :
    step ⟨p, c⟩ = exec i ⟨p, c.countStep⟩ := by
  rw [step_running hs hr]
  simp [State.runStep, CoreState.budgetSpent, hb, CoreState.fetch, hf, hd]

/-- Settles O15: the register form of the compare; an index outside the file by the register access contract. -/
theorem eqSkipsWhenUnequal : Obligations.EqSkipsWhenUnequal := by
  intro p c l r hp hw
  obtain ⟨-, -, -, hlhs, hrhs⟩ := registerFileContract p c hp
  exact ⟨encode_opcode_bits p.W (.eq l r),
    fun hl hr => exec_move_completes (exec_eq_moves hp hl hr),
    fun hl hr => exec_move_leaves_program (exec_eq_moves hp hl hr),
    fun hl hr => hrhs (.eq l r) hw rfl hr fun _ => hl,
    hlhs (.eq l r) hw rfl⟩

/-- Settles O16: the immediate form, whose literal is compared as it stands and never checked against the file. -/
theorem eqcSkipsWhenUnequal : Obligations.EqcSkipsWhenUnequal := by
  intro p c l r hp hw
  obtain ⟨-, -, -, hlhs, -⟩ := registerFileContract p c hp
  exact ⟨encode_opcode_bits p.W (.eqc l r),
    fun hl => exec_move_completes (exec_eqc_moves hp hl),
    fun hl => exec_move_leaves_program (exec_eqc_moves hp hl),
    hlhs (.eqc l r) hw rfl⟩

/-- Settles O17: the advance by one of any state, so also of the state in which the run loop has counted the step. -/
theorem nopOnlyAdvances : Obligations.NopOnlyAdvances := by
  intro p c l r hp
  refine ⟨encode_opcode_bits p.W (.nop l r), exec_move_completes (exec_nop_moves hp),
    exec_move_leaves_program (exec_nop_moves hp), fun w hr hs hb hf hd hin => ?_⟩
  calc step ⟨p, c⟩ = exec (.nop l r) ⟨p, c.countStep⟩ := step_executes_fetched hr hs hb hf hd
    _ = .next ⟨p, { c.countStep with pc := c.pc + 1 }⟩ := exec_move_completes (exec_nop_moves hp) hin

end Sys2Proof.Machine
end

section
/-! SUPPORT. The print instructions (44_print.md): the two answers of the handler `printString`, the issue of it in either operand form, and
the append followed by the advance. The operand value is the address: the register's content for `print`, the literal for `printc`. -/

namespace Sys2Proof.Machine

variable {p : Params}

/-! The handler, by whether a string is at the address (44_print.md rule R140). -/

theorem printString_found {c : CoreState p} {a : Word p.W} {bytes : List Byte} (lhs : Word p.W)
    (hs : c.strmem.stringAt a = some bytes) : printString c lhs a = .effect (c.append bytes) 1 := by
  simp only [printString, hs]

theorem printString_absent {c : CoreState p} {a : Word p.W} (lhs : Word p.W) (hs : c.strmem.stringAt a = none) :
    printString c lhs a = .stop (.printFault a) := by
  simp only [printString, hs]

section prints
variable {c : CoreState p} {form : Form} {lhs rhs a : Word p.W} {bytes : List Byte}

/-- A string at the operand value is appended, then the pc advances by one; the unused `lhs` has no bound. -/
theorem CoreState.issue_printString_found (hp : p.Valid) (ho : c.operand form rhs = some a)
    (hs : c.strmem.stringAt a = some bytes) :
    c.issue false form false lhs rhs printString = (c.append bytes).advance 1 := by
  have ⟨hW, _⟩ := hp
  rw [c.issue_runs (fun h => absurd h Bool.false_ne_true) ho, printString_found lhs hs,
    c.sequence_effect _ (one_ne_zero_word hW)]

/-- With no string at the operand value the run ends there, and no byte is appended (44_print.md rule R143). -/
theorem CoreState.issue_printString_absent (ho : c.operand form rhs = some a) (hs : c.strmem.stringAt a = none) :
    c.issue false form false lhs rhs printString = c.recorded (.printFault a) none (some c.pc) := by
  rw [c.issue_runs (fun h => absurd h Bool.false_ne_true) ho, printString_absent lhs hs]
  exact c.endRun_eq_recorded _

end prints

/-! What an instruction that appends to `out` and advances by one leaves, the whole next state given. -/

section append
variable {c : CoreState p} {i : Instr} {bytes : List Byte}

theorem exec_append_completes (hexec : exec i ⟨p, c⟩ = .next ⟨p, (c.append bytes).advance 1⟩)
    (hin : (c.pc + 1).toNat < c.prog.length) :
    exec i ⟨p, c⟩ = .next ⟨p, { c with out := c.out ++ bytes, pc := c.pc + 1 }⟩ := by
  rw [hexec, (c.append bytes).advance_inside hin]
  rfl

/-- The advance out of the program ends the run with the bytes standing (60_exceptions.md rule R188). -/
theorem exec_append_leaves_program (hexec : exec i ⟨p, c⟩ = .next ⟨p, (c.append bytes).advance 1⟩)
    (hout : c.prog.length ≤ (c.pc + 1).toNat) :
    exec i ⟨p, c⟩ =
      .next ⟨p, ({ c with out := c.out ++ bytes, pc := c.pc + 1 } : CoreState p).recorded
        (.error .outOfBoundsProgramCounter (c.pc + 1)) none (some (c.pc + 1))⟩ := by
  rw [hexec, (c.append bytes).advance_outside hout]
  rfl

end append

/-! The append of each operand form. -/

section forms
variable {c : CoreState p} {l r : Nat} {bytes : List Byte}

theorem exec_print_appends (hp : p.Valid) (hr : r < p.NREG) (hs : c.strmem.stringAt c.regs[r] = some bytes) :
    exec (.print l r) ⟨p, c⟩ = .next ⟨p, (c.append bytes).advance 1⟩ := by
  rw [exec_print_eq, CoreState.issue_printString_found hp (c.operand_field hp hr) hs]

theorem exec_printc_appends (hp : p.Valid) (hs : c.strmem.stringAt (BitVec.ofNat p.W r) = some bytes) :
    exec (.printc l r) ⟨p, c⟩ = .next ⟨p, (c.append bytes).advance 1⟩ := by
  rw [exec_printc_eq, CoreState.issue_printString_found hp (c.operand_immediate _) hs]

end forms

/-- Settles O18: the append of the string at the register's content, the print fault where there is none, and an index outside the file by
the register access contract. -/
theorem printAppendsTheString : Obligations.PrintAppendsTheString := by
  intro p c l r hp hw
  obtain ⟨-, -, -, -, hrhs⟩ := registerFileContract p c hp
  exact ⟨encode_opcode_bits p.W (.print l r),
    fun hr _ hs => exec_append_completes (exec_print_appends hp hr hs),
    fun hr _ hs => exec_append_leaves_program (exec_print_appends hp hr hs),
    fun hr hs => by rw [exec_print_eq, CoreState.issue_printString_absent (c.operand_field hp hr) hs],
    fun hr => hrhs (.print l r) hw rfl hr fun hu => absurd hu (by simp [opcodeNumber])⟩

/-- Settles O19: the append of the string at the literal, which is never checked against the file, and the print fault where there is
none. -/
theorem printcAppendsTheString : Obligations.PrintcAppendsTheString := by
  intro p c l r hp _
  exact ⟨encode_opcode_bits p.W (.printc l r),
    fun _ hs => exec_append_completes (exec_printc_appends hp hs),
    fun _ hs => exec_append_leaves_program (exec_printc_appends hp hs),
    fun hs => by rw [exec_printc_eq, CoreState.issue_printString_absent (c.operand_immediate _) hs]⟩

end Sys2Proof.Machine
end

section
/-! SUPPORT. The relative jumps (45_jump.md): the offset of a displacement by the spec's own test of its top bit, the offsets of the
displacement 0 and of a negative one, and the advance by the offset in either operand form. The operand value is the displacement: the
register's content for `jmp`, the literal for `jmpc`. -/

namespace Sys2Proof.Machine

variable {p : Params}

/-! The offset of a displacement (45_jump.md rule R150). -/

section offset
variable {W : Nat} {d : Word W}

/-- The offset as rule R151 writes it, by bit `W - 1`. -/
theorem jumpOffset_eq_ite (d : Word W) : jumpOffset d = if d.getLsbD (W - 1) then d else d + 1 := by
  rw [jumpOffset, BitVec.msb_eq_getLsbD_last]

theorem jumpOffset_zero : jumpOffset (0 : Word W) = 1 := by
  simp [jumpOffset]

/-- A negative displacement is its own offset, and as a number that is at least the largest program capacity of any machine of its width
(00_scope.md rule R6). -/
theorem le_jumpOffset_of_negative (h : d.getLsbD (W - 1) = true) : 2 ^ (W - 1) ≤ (jumpOffset d).toNat := by
  rw [jumpOffset_eq_ite, if_pos h]
  exact Nat.ge_two_pow_of_testBit h

end offset

/-! The advance of each operand form. -/

section forms
variable {c : CoreState p} {l r : Nat}

/-- A jump advances by its displacement's offset, which is never the halting 0; the unused `lhs` has no bound. -/
theorem CoreState.issue_jump {form : Form} {lhs rhs d : Word p.W} (hp : p.Valid) (ho : c.operand form rhs = some d) :
    c.issue false form false lhs rhs jump = c.advance (jumpOffset d) := by
  have ⟨hW, _⟩ := hp
  exact CoreState.issue_moves (fun h => absurd h Bool.false_ne_true) ho rfl (jumpOffset_ne_zero hW d)

theorem exec_jmp_moves (hp : p.Valid) (hr : r < p.NREG) :
    exec (.jmp l r) ⟨p, c⟩ = .next ⟨p, c.advance (jumpOffset c.regs[r])⟩ := by
  rw [exec_jmp_eq, CoreState.issue_jump hp (c.operand_field hp hr)]

theorem exec_jmpc_moves (hp : p.Valid) :
    exec (.jmpc l r) ⟨p, c⟩ = .next ⟨p, c.advance (jumpOffset (BitVec.ofNat p.W r))⟩ := by
  rw [exec_jmpc_eq, CoreState.issue_jump hp (c.operand_immediate _)]

end forms

/-! Where a jump from slot 0 cannot land (45_jump.md rule R152). -/

section slotZero
variable {c : CoreState p} {d : Word p.W}

/-- A negative displacement at slot 0 wraps to a slot beyond the program store. -/
theorem negative_jump_at_zero_leaves_program (hp : p.Valid) (hfits : c.prog.length ≤ p.PROG_CAP)
    (hneg : d.getLsbD (p.W - 1) = true) (hpc : c.pc = 0) : c.prog.length ≤ (c.pc + jumpOffset d).toNat := by
  obtain ⟨-, -, -, -, hcap⟩ := hp
  calc c.prog.length ≤ 2 ^ (p.W - 1) := hfits.trans hcap
    _ ≤ (jumpOffset d).toNat := le_jumpOffset_of_negative hneg
    _ = (c.pc + jumpOffset d).toNat := by simp [hpc]

/-- A jump at slot 0 does not stay there: its offset is not 0. -/
theorem one_le_jump_at_zero (hp : p.Valid) (hpc : c.pc = 0) : 1 ≤ (c.pc + jumpOffset d).toNat := by
  have ⟨hW, _⟩ := hp
  have h0 : (jumpOffset d).toNat ≠ 0 := fun h => jumpOffset_ne_zero hW d (BitVec.eq_of_toNat_eq (by simpa using h))
  simpa [hpc, Nat.one_le_iff_ne_zero] using h0

end slotZero

/-- Settles O20: the advance by the offset of the register's content, and an index outside the file by the register access contract. -/
theorem jmpMovesByTheRegister : Obligations.JmpMovesByTheRegister := by
  intro p c l r hp hw
  obtain ⟨-, -, -, -, hrhs⟩ := registerFileContract p c hp
  simp only [← jumpOffset_eq_ite]
  exact ⟨encode_opcode_bits p.W (.jmp l r),
    fun hr => exec_move_completes (exec_jmp_moves hp hr),
    fun hr => exec_move_leaves_program (exec_jmp_moves hp hr),
    fun hr h0 => by rw [h0, jumpOffset_zero],
    fun hr => hrhs (.jmp l r) hw rfl hr fun hu => absurd hu (by simp [opcodeNumber])⟩

/-- Settles O21: the advance by the offset of the literal, which is never checked against the file, and its two corner cases at slot 0. -/
theorem jmpcMovesByTheLiteral : Obligations.JmpcMovesByTheLiteral := by
  intro p c l r hp _
  simp only [← jumpOffset_eq_ite]
  exact ⟨encode_opcode_bits p.W (.jmpc l r),
    exec_move_completes (exec_jmpc_moves hp),
    exec_move_leaves_program (exec_jmpc_moves hp),
    fun h0 => by rw [h0]; exact congrArg (c.pc + ·) jumpOffset_zero,
    negative_jump_at_zero_leaves_program hp,
    fun _ => one_le_jump_at_zero hp⟩

end Sys2Proof.Machine
end

section
/-! SUPPORT. The halt instructions (46_halt.md): the issue of the handler `halt` in either operand form. The operand value is the result of
the run: the register's content for `ret`, the literal for `retc`. -/

namespace Sys2Proof.Machine

variable {p : Params}

/-- The handler's offset 0, in a halt opcode, ends the run with the operand value (40_dispatch_and_sequencer.md rule R106). -/
theorem CoreState.sequence_halt (c : CoreState p) (lhs opv : Word p.W) :
    c.sequence true opv (halt c lhs opv) = c.endRun (.halted opv) := by
  simp only [halt, CoreState.sequence, if_true]

/-- A halt records its operand value as the result and leaves `fault_pc` not valid; the unused `lhs` has no bound. -/
theorem CoreState.issue_halt {c : CoreState p} {form : Form} {lhs rhs opv : Word p.W} (ho : c.operand form rhs = some opv) :
    c.issue false form true lhs rhs halt = c.recorded (.halted opv) (some opv) none := by
  rw [c.issue_runs (fun h => absurd h Bool.false_ne_true) ho, c.sequence_halt]
  exact c.endRun_eq_recorded _

/-- Settles O23: the operand value of the immediate form is the literal on every machine, so no register check precedes the halt. -/
theorem retcHaltsWithTheLiteral : Obligations.RetcHaltsWithTheLiteral := by
  intro p c l r _
  exact ⟨encode_opcode_bits p.W (.retc l r), by rw [exec_retc_eq, CoreState.issue_halt (c.operand_immediate _)]⟩

end Sys2Proof.Machine
end

section
/-! SUPPORT. The host's transactions (47_host_operations.md): a machine with no run in progress accepts the first one presented, and what
RegGet answers. -/

namespace Sys2Proof.Machine

variable {p : Params}

/-- With no run in progress, the first transaction presented is accepted and no other (47_host_operations.md rule R161). -/
theorem step_performs {c : CoreState p} {cmd : HostCommand p.W} {later : List (HostCommand p.W)} (hs : c.status ≠ .running)
    (hr : c.rst = false) (hi : c.inbox = cmd :: later) :
    step ⟨p, c⟩ = .next ⟨p, ({ c with inbox := later } : CoreState p).perform cmd⟩ := by
  rw [step_stopped hs hr, CoreState.hostStep, hi]

@[simp] theorem CoreState.perform_regGet (c : CoreState p) (i : Word p.W) : c.perform (.regGet i) = c.regGet i := rfl

/-- The other half of `CoreState.regGet_outside`. -/
theorem CoreState.regGet_inside (c : CoreState p) {i : Word p.W} (h : i.toNat < p.NREG) :
    c.regGet i = { c with response := some (.value c.regs[i.toNat]) } := by
  rw [CoreState.regGet, if_pos ((c.inFile_iff i).2 h), c.x_eq i h]

/-- Settles O42: the RegGet at the head of the inbox is performed, and its index is inside the file or outside it. -/
theorem regGetAnswersTheRegister : Obligations.RegGetAnswersTheRegister := by
  intro p c i later hs hr hi
  rw [step_performs hs hr hi, CoreState.perform_regGet]
  constructor
  · intro hin
    rw [CoreState.regGet_inside _ hin]
  · intro hout
    rw [CoreState.regGet_outside _ hout]

end Sys2Proof.Machine
end

section
/-! SUPPORT. The instruction word (30_encoding.md section 1): it is the concatenation of its three fields, so the encoder rebuilds a word from
the decoded instruction and the decoder gives a well-formed instruction back. -/

namespace Sys2Proof

section word
variable {W : Nat} {w : InstrWord W} {i : Instr}

/-- The split of a word loses nothing (30_encoding.md rule R72). -/
theorem fields_append (w : InstrWord W) : opcodeField w ++ lhsField w ++ rhsField w = w := by
  have hrhs : (rhsField w).toNat = w.toNat % 2 ^ W := rhsField_toNat w
  have hlhs : (lhsField w).toNat = w.toNat / 2 ^ W % 2 ^ W := lhsField_toNat w
  have hop : (opcodeField w).toNat = w.toNat / 2 ^ W / 2 ^ W := by
    have hw : w.toNat < 2 ^ W * 2 ^ W * 2 ^ 8 := by
      rw [← Nat.pow_add, ← Nat.pow_add]
      exact w.isLt.trans_eq (by congr 1; omega)
    rw [opcodeField_toNat, Nat.two_mul, Nat.pow_add, ← Nat.div_div_eq_div_mul, Nat.mod_eq_of_lt]
    rw [Nat.div_div_eq_div_mul]
    exact Nat.div_lt_of_lt_mul hw
  apply BitVec.eq_of_toNat_eq
  rw [toNat_append_eq, toNat_append_eq, hop, hlhs, hrhs, Nat.div_add_mod', Nat.div_add_mod']

/-- An instruction with a word's own fields encodes to that word. -/
theorem encode_of_fields (hop : opcodeNumber i = (opcodeField w).toNat) (hlhs : i.lhs = (lhsField w).toNat)
    (hrhs : i.rhs = (rhsField w).toNat) : encode W i = w := by
  calc encode W i = opcodeField w ++ lhsField w ++ rhsField w := by simp [encode, hop, hlhs, hrhs]
    _ = w := fields_append w

/-- What the decoder answers for an opcode field that names an instruction. -/
theorem decode_of_opcode_le (h : (opcodeField w).toNat ≤ 18) :
    ∃ i, decode w = .instr i ∧ opcodeNumber i = (opcodeField w).toNat ∧ i.lhs = (lhsField w).toNat ∧
      i.rhs = (rhsField w).toNat := by
  rcases decode_cases w with ⟨i, hd, hop, hlhs, hrhs, _⟩ | ⟨_, hn⟩
  · exact ⟨i, hd, hop, hlhs, hrhs⟩
  · omega

theorem decode_encode (h : i.WellFormed W) : decode (encode W i) = .instr i := by
  obtain ⟨hop, hlhs, hrhs⟩ := encode_fields W i
  obtain ⟨hl, hr⟩ := h
  simp only [decode, hop, hlhs, hrhs, Nat.mod_eq_of_lt hl, Nat.mod_eq_of_lt hr, instrOfOpcode_self]

/-- The decoder answers instructions of `W`-bit fields only. -/
theorem wellFormed_of_decode (h : decode w = .instr i) : i.WellFormed W := by
  rcases decode_cases w with ⟨j, hd, _, hlhs, hrhs, _⟩ | ⟨hd, _⟩
  · obtain rfl : j = i := by simpa [hd] using h
    exact ⟨hlhs ▸ (lhsField w).isLt, hrhs ▸ (rhsField w).isLt⟩
  · simp [hd] at h

theorem decode_rejects_iff (n : Nat) :
    decode w = .rejected (.invalidOpcode n) ↔ n = (opcodeField w).toNat ∧ 19 ≤ n := by
  rcases decode_cases w with ⟨i, hd, _, _, _, hle⟩ | ⟨hd, hn⟩
  · simp only [hd, reduceCtorEq, false_iff]
    omega
  · simp only [hd, Decoded.rejected.injEq, DecodeError.invalidOpcode.injEq]
    omega

end word

/-- Settles O1: the decoder's instruction has the fields of the word, and a word is its fields. -/
theorem decodeEncodeAgree : Obligations.DecodeEncodeAgree := by
  refine ⟨fun W w h => ?_, fun W i => decode_encode⟩
  rw [← opcodeField_toNat] at h
  obtain ⟨i, hd, hop, hlhs, hrhs⟩ := decode_of_opcode_le h
  exact ⟨i, hd, hop.trans (opcodeField_toNat w), hlhs.trans (lhsField_toNat w), hrhs.trans (rhsField_toNat w),
    encode_of_fields hop hlhs hrhs⟩

/-- Settles O2: the decoder's one rejection. -/
theorem invalidOpcodesAreRejected : Obligations.InvalidOpcodesAreRejected := by
  intro W w n
  rw [← opcodeField_toNat]
  exact decode_rejects_iff n

/-- Settles O3: each row of the table is a closed fact, evaluated. -/
theorem workedEncodings : Obligations.WorkedEncodings := by
  unfold Obligations.WorkedEncodings
  decide

end Sys2Proof
end

section
/-! SUPPORT. Unused fields (30_encoding.md section 4, 92_eei_decisions.md D25): an instruction is what its cleared form is, to the machine and
to the disassembler, and assembling the disassembled form gives the cleared form back. -/

namespace Sys2Proof.Machine

/-- The cleared form of every instruction is an instruction, and the machine cannot tell the two apart: no handler looks at a field that
its opcode does not use. -/
theorem exec_clearUnused (s : State) (i : Instr) : ∃ j, clearUnused i = some j ∧ exec j s = exec i s := by
  cases i <;> exact ⟨_, rfl, rfl⟩

/-- The cleared form is made of the opcode and the used fields alone. -/
theorem clearUnused_congr {i j : Instr} (hop : opcodeNumber i = opcodeNumber j)
    (hlhs : usesLhs (opcodeNumber i) = true → i.lhs = j.lhs) (hrhs : opcodeNumber i ≠ 12 → i.rhs = j.rhs) :
    clearUnused i = clearUnused j := by
  have hl : (if usesLhs (opcodeNumber i) then i.lhs else 0) = if usesLhs (opcodeNumber j) then j.lhs else 0 := by
    rw [← hop]
    split
    · next h => exact hlhs h
    · rfl
  have hr : (if opcodeNumber i = 12 then 0 else i.rhs) = if opcodeNumber j = 12 then 0 else j.rhs := by
    rw [← hop]
    split
    · rfl
    · next h => exact hrhs h
  rw [clearUnused, clearUnused, hl, hr, hop]

/-- Settles O4: the machine sees the cleared form, which the two instructions share. -/
theorem unusedFieldsAreIgnored : Obligations.UnusedFieldsAreIgnored := by
  refine ⟨fun s i j hop hlhs hrhs => ?_, exec_clearUnused⟩
  obtain ⟨i', hi', hi⟩ := exec_clearUnused s i
  obtain ⟨j', hj', hj⟩ := exec_clearUnused s j
  obtain rfl : i' = j' := by
    rw [clearUnused_congr hop hlhs hrhs, hj'] at hi'
    exact (Option.some.inj hi').symm
  exact hi.symm.trans hj

/-! The operands as the assembler reads them back (30_encoding.md rule R85). -/

theorem literalWord_natCast {W n : Nat} (h : n < 2 ^ W) : literalWord W n = n := by
  rw [literalWord, Int.emod_eq_of_lt (by omega) (by exact_mod_cast h), Int.toNat_natCast]

/-- The signed value of a field, reduced modulo `2^W`, is the field. -/
theorem literalWord_signed {W n : Nat} (h : n < 2 ^ W) : literalWord W (signed (BitVec.ofNat W n)) = n := by
  have hmod : signed (BitVec.ofNat W n) % (2 : Int) ^ W = (n : Int) % (2 : Int) ^ W := by
    rw [signed, toNat_ofNat_of_field h]
    split
    · exact Int.sub_emod_right _ _
    · rfl
  rw [literalWord, hmod, ← literalWord, literalWord_natCast h]

theorem registerField_of_lt {W n : Nat} (h : n < 2 ^ W) : registerField W n = some n := if_pos h

/-! What the assembler makes of each shape of a written instruction whose mnemonic has the number `n` (30_encoding.md rules R75, R85). -/

section shapes
variable {W : Nat} (labels : List (String × Nat)) (j : Nat) {m : String} {n : Nat} (hm : mnemonics.idxOf m = n)
include hm

theorem assemble_register_register (hn : n ≤ 11) (hf : isRegisterForm n) {x y : Nat} (hx : x < 2 ^ W) (hy : y < 2 ^ W) :
    AsmInstr.assemble W labels j ⟨m, [.reg x, .reg y]⟩ = instrOfOpcode n x y := by
  simp only [AsmInstr.assemble, hm, hn, hf, registerField_of_lt hx, registerField_of_lt hy, and_self, if_true]
  rfl

theorem assemble_register_literal (hn : n ≤ 11) (hf : isImmediateForm n) {x : Nat} (hx : x < 2 ^ W) (k : Int) :
    AsmInstr.assemble W labels j ⟨m, [.reg x, .lit k]⟩ = instrOfOpcode n x (literalWord W k) := by
  simp only [AsmInstr.assemble, hm, hn, hf, registerField_of_lt hx, and_self, if_true]
  rfl

theorem assemble_register (hn : 13 ≤ n) (hf : isRegisterForm n) {y : Nat} (hy : y < 2 ^ W) :
    AsmInstr.assemble W labels j ⟨m, [.reg y]⟩ = instrOfOpcode n 0 y := by
  simp only [AsmInstr.assemble, hm, hn, hf, registerField_of_lt hy, and_self, if_true]
  rfl

theorem assemble_literal (hn : 13 ≤ n) (hf : isImmediateForm n) (k : Int) :
    AsmInstr.assemble W labels j ⟨m, [.lit k]⟩ = instrOfOpcode n 0 (literalWord W k) := by
  simp only [AsmInstr.assemble, hm, hn, hf, and_self, if_true]

end shapes

/-- The mnemonics are distinct: each names its own number. -/
theorem idxOf_mnemonic {n : Nat} (h : n ≤ 18) : mnemonics.idxOf (mnemonics.getD n "") = n := by
  interval_cases n <;> decide

/-! What the disassembler writes for each form, and its assembly (30_encoding.md rules R76, R87). -/

section forms
variable {W : Nat} {i : Instr} (labels : List (String × Nat)) (j : Nat)

theorem ne_of_isRegisterForm {n : Nat} (hf : isRegisterForm n = true) : n ≠ 12 ∧ n ≠ 16 := by
  constructor <;> rintro rfl <;> exact absurd hf (by decide)

theorem assemble_disassemble_register (hf : isRegisterForm (opcodeNumber i) = true) (h : i.WellFormed W) :
    (disassemble W i).assemble W labels j = clearUnused i := by
  obtain ⟨hl, hr⟩ := h
  obtain ⟨h12, h16⟩ := ne_of_isRegisterForm hf
  have hm := idxOf_mnemonic (opcodeNumber_le i)
  simp only [disassemble, clearUnused, if_neg h12, if_neg h16, if_pos hf]
  by_cases hu : usesLhs (opcodeNumber i) = true
  · simp only [if_pos hu]
    exact assemble_register_register labels j hm (by simpa using hu) hf hl hr
  · simp only [if_neg hu]
    have hlt : 11 < opcodeNumber i := by simpa using hu
    exact assemble_register labels j hm (by omega) hf hr

theorem assemble_disassemble_immediate (hf : isRegisterForm (opcodeNumber i) = false) (h12 : opcodeNumber i ≠ 12)
    (h : i.WellFormed W) : (disassemble W i).assemble W labels j = clearUnused i := by
  obtain ⟨hl, hr⟩ := h
  have hm := idxOf_mnemonic (opcodeNumber_le i)
  have himm : isImmediateForm (opcodeNumber i) = true := by
    have := opcodeNumber_le i
    simp only [List.mem_cons, List.not_mem_nil, decide_eq_true_eq, decide_eq_false_iff_not] at hf ⊢
    omega
  obtain ⟨k, hk, hlit⟩ : ∃ k, (if opcodeNumber i = 16 then Operand.lit (signed (BitVec.ofNat W i.rhs))
      else .lit i.rhs) = .lit k ∧ literalWord W k = i.rhs := by
    split
    · exact ⟨_, rfl, literalWord_signed hr⟩
    · exact ⟨_, rfl, literalWord_natCast hr⟩
  simp only [disassemble, clearUnused, if_neg h12, hf, Bool.false_eq_true, if_false, hk]
  by_cases hu : usesLhs (opcodeNumber i) = true
  · simp only [if_pos hu]
    rw [assemble_register_literal labels j hm (by simpa using hu) himm hl, hlit]
  · simp only [if_neg hu]
    have hlt : 11 < opcodeNumber i := by simpa using hu
    rw [assemble_literal labels j hm (by omega) himm, hlit]

theorem assemble_disassemble_nop (h12 : opcodeNumber i = 12) :
    (disassemble W i).assemble W labels j = clearUnused i := by
  simp only [disassemble, clearUnused, h12, if_true]
  rfl

/-- Assembling the disassembled form of an instruction clears its unused fields. -/
theorem assemble_disassemble (h : i.WellFormed W) : (disassemble W i).assemble W labels j = clearUnused i := by
  by_cases h12 : opcodeNumber i = 12
  · exact assemble_disassemble_nop labels j h12
  · cases hf : isRegisterForm (opcodeNumber i)
    · exact assemble_disassemble_immediate labels j hf h12 h
    · exact assemble_disassemble_register labels j hf h

end forms

/-- The disassembler shows the used fields alone. -/
theorem disassemble_clearUnused (W : Nat) (i : Instr) : ∃ k, clearUnused i = some k ∧ disassemble W k = disassemble W i := by
  cases i <;> exact ⟨_, rfl, rfl⟩

theorem disassemble_eq_of_clearUnused_eq {i j : Instr} (W : Nat) (h : clearUnused i = clearUnused j) :
    disassemble W i = disassemble W j := by
  obtain ⟨k, hk, hi⟩ := disassemble_clearUnused W i
  obtain ⟨k', hk', hj⟩ := disassemble_clearUnused W j
  obtain rfl : k = k' := by
    rw [h, hk'] at hk
    exact (Option.some.inj hk).symm
  exact hi.symm.trans hj

/-- Settles O49: the written form assembles to the cleared form, so it determines it; and it is made of it. -/
theorem disassemblyAssemblesBack : Obligations.DisassemblyAssemblesBack := by
  refine ⟨fun W i labels j _ hi => assemble_disassemble labels j hi, fun W i j _ hi hj h => ?_, fun W i j h => ?_⟩
  · rw [← assemble_disassemble [] 0 hi, h, assemble_disassemble [] 0 hj]
  · have hd := disassemble_eq_of_clearUnused_eq W h
    exact ⟨hd, congrArg AsmInstr.text hd⟩

end Sys2Proof.Machine
end

section
/-! SUPPORT. What no instruction can do to the state, whatever the parameters: an instruction replaces the register file and appends to `out`,
then ends the run or advances the pc, and it decides this without looking at the program store or at the presented transactions. -/

namespace Sys2Proof.Machine

variable {p : Params}

/-- `c` with another program store and other presented transactions: the two fields that no handler reads. -/
def CoreState.rehost (c : CoreState p) (ws : List (InstrWord p.W)) (presented : List (HostCommand p.W)) : CoreState p :=
  { c with prog := ws, inbox := presented }

theorem CoreState.rehost_self (c : CoreState p) : c.rehost c.prog c.inbox = c := rfl

/-- `c` with the whole effect that a handler can have: another register file and more output. -/
def CoreState.affect (c : CoreState p) (regs : Vector (Word p.W) p.NREG) (bytes : List Byte) : CoreState p :=
  { c with regs := regs, out := c.out ++ bytes }

section affect
variable (c : CoreState p) (regs : Vector (Word p.W) p.NREG) (bytes : List Byte)

@[simp] theorem CoreState.affect_regs : (c.affect regs bytes).regs = regs := rfl
@[simp] theorem CoreState.affect_pc : (c.affect regs bytes).pc = c.pc := rfl
@[simp] theorem CoreState.affect_prog : (c.affect regs bytes).prog = c.prog := rfl
@[simp] theorem CoreState.affect_status : (c.affect regs bytes).status = c.status := rfl
@[simp] theorem CoreState.affect_outcome : (c.affect regs bytes).outcome = c.outcome := rfl
@[simp] theorem CoreState.affect_result : (c.affect regs bytes).result = c.result := rfl
@[simp] theorem CoreState.affect_faultPc : (c.affect regs bytes).faultPc = c.faultPc := rfl
@[simp] theorem CoreState.affect_out : (c.affect regs bytes).out = c.out ++ bytes := rfl
@[simp] theorem CoreState.affect_steps : (c.affect regs bytes).steps = c.steps := rfl
@[simp] theorem CoreState.affect_strmem : (c.affect regs bytes).strmem = c.strmem := rfl
@[simp] theorem CoreState.affect_rst : (c.affect regs bytes).rst = c.rst := rfl
@[simp] theorem CoreState.affect_inbox : (c.affect regs bytes).inbox = c.inbox := rfl
@[simp] theorem CoreState.affect_response : (c.affect regs bytes).response = c.response := rfl

end affect

theorem CoreState.affect_nil (c : CoreState p) (regs : Vector (Word p.W) p.NREG) :
    c.affect regs [] = { c with regs := regs } := by
  rw [CoreState.affect, List.append_nil]

/-- What a handler answers on `c`, the same on every state that differs from `c` in what the host alone changes. -/
inductive Determined (c : CoreState p) (h : CoreState p → HandlerResult p) : Prop where
  | stops (o : RunOutcome p.W) (hr : ∀ ws presented, h (c.rehost ws presented) = .stop o)
  | affects (regs : Vector (Word p.W) p.NREG) (bytes : List Byte) (off : Word p.W)
      (hr : ∀ ws presented, h (c.rehost ws presented) = .effect ((c.affect regs bytes).rehost ws presented) off)

section handlers
variable (c : CoreState p) (lhs opv : Word p.W)

/-- A handler that reads and writes no more than the register file. -/
theorem Determined.of_regs {h : CoreState p → HandlerResult p} (regs : Vector (Word p.W) p.NREG) (off : Word p.W)
    (hr : ∀ ws presented, h (c.rehost ws presented) = .effect (({ c with regs := regs } : CoreState p).rehost ws presented) off) :
    Determined c h :=
  .affects regs [] off (by simpa only [CoreState.affect_nil] using hr)

theorem arithmetic_determined (op : Word p.W → Word p.W → Word p.W) : Determined c (arithmetic op · lhs opv) :=
  .of_regs c (c.setX lhs (op (c.x lhs) opv)).regs 1 fun _ _ => rfl

theorem division_determined (op : Word p.W → Word p.W → Word p.W) (info : Word p.W) :
    Determined c (division op info · lhs opv) := by
  by_cases h0 : opv = 0
  · exact .stops _ fun _ _ => if_pos h0
  · simpa only [division_of_ne_zero op info _ lhs h0] using arithmetic_determined c lhs opv op

theorem assignment_determined : Determined c (assignment · lhs opv) :=
  .of_regs c (c.setX lhs opv).regs 1 fun _ _ => rfl

theorem compareSkip_determined : Determined c (compareSkip · lhs opv) :=
  .of_regs c c.regs (compareOffset (c.x lhs) opv) fun _ _ => rfl

theorem advanceOne_determined : Determined c (fun c' => .effect c' 1) := .of_regs c c.regs 1 fun _ _ => rfl

theorem jump_determined : Determined c (jump · lhs opv) := .of_regs c c.regs (jumpOffset opv) fun _ _ => rfl

theorem halt_determined : Determined c (halt · lhs opv) := .of_regs c c.regs 0 fun _ _ => rfl

theorem printString_determined : Determined c (printString · lhs opv) := by
  cases hs : c.strmem.stringAt opv with
  | none => exact .stops _ fun _ _ => printString_absent lhs hs
  | some bytes => exact .affects c.regs bytes 1 fun _ _ => printString_found lhs hs

end handlers

/-- Every instruction is the issue of one handler on all machines, and the handler's answer is determined. -/
theorem exec_uniform (i : Instr) :
    ∃ usesLhs form haltOpcode handler,
      (∀ c : CoreState p, exec i ⟨p, c⟩ =
        .next ⟨p, c.issue usesLhs form haltOpcode (BitVec.ofNat p.W i.lhs) (BitVec.ofNat p.W i.rhs) handler⟩) ∧
      ∀ (c : CoreState p) (lhs opv : Word p.W), Determined c (handler · lhs opv) := by
  cases i with
  | add l r | addc l r =>
    exact ⟨_, _, _, arithmetic aluAdd, fun _ => rfl, fun c lhs opv => arithmetic_determined c lhs opv aluAdd⟩
  | mul l r | mulc l r =>
    exact ⟨_, _, _, arithmetic aluMul, fun _ => rfl, fun c lhs opv => arithmetic_determined c lhs opv aluMul⟩
  | div l r => exact ⟨_, _, _, _, (exec_div_eq · l r), fun c lhs opv => division_determined c lhs opv aluDiv _⟩
  | divc l r => exact ⟨_, _, _, _, (exec_divc_eq · l r), fun c lhs opv => division_determined c lhs opv aluDiv 0⟩
  | mod l r => exact ⟨_, _, _, _, (exec_mod_eq · l r), fun c lhs opv => division_determined c lhs opv aluMod _⟩
  | modc l r => exact ⟨_, _, _, _, (exec_modc_eq · l r), fun c lhs opv => division_determined c lhs opv aluMod 0⟩
  | set l r | setc l r => exact ⟨_, _, _, assignment, fun _ => rfl, assignment_determined⟩
  | eq l r | eqc l r => exact ⟨_, _, _, compareSkip, fun _ => rfl, compareSkip_determined⟩
  | nop l r => exact ⟨_, _, _, _, (exec_nop_eq · l r), fun c _ _ => advanceOne_determined c⟩
  | print l r | printc l r => exact ⟨_, _, _, printString, fun _ => rfl, printString_determined⟩
  | jmp l r | jmpc l r => exact ⟨_, _, _, jump, fun _ => rfl, jump_determined⟩
  | ret l r | retc l r => exact ⟨_, _, _, halt, fun _ => rfl, halt_determined⟩

/-- `s` does one thing on `c` and on every state that differs from `c` in what the host alone changes: the effect, then the
end of the run or the advance. -/
inductive ActsAlike (c : CoreState p) (s : CoreState p → CoreState p) : Prop where
  | ends (regs : Vector (Word p.W) p.NREG) (bytes : List Byte) (o : RunOutcome p.W)
      (h : ∀ ws presented, s (c.rehost ws presented) = ((c.affect regs bytes).rehost ws presented).endRun o)
  | advances (regs : Vector (Word p.W) p.NREG) (bytes : List Byte) (off : Word p.W)
      (h : ∀ ws presented, s (c.rehost ws presented) = ((c.affect regs bytes).rehost ws presented).advance off)

/-- A run that ends before any effect. -/
theorem ActsAlike.of_endRun {c : CoreState p} {s : CoreState p → CoreState p} (o : RunOutcome p.W)
    (h : ∀ ws presented, s (c.rehost ws presented) = (c.rehost ws presented).endRun o) : ActsAlike c s :=
  .ends c.regs [] o (by simpa only [CoreState.affect_nil] using h)

theorem sequence_does {c : CoreState p} {h : CoreState p → HandlerResult p} (haltOpcode : Bool) (opv : Word p.W)
    (hd : Determined c h) : ActsAlike c (fun c' => c'.sequence haltOpcode opv (h c')) := by
  cases hd with
  | stops o hr => exact .of_endRun o fun ws presented => by rw [hr, CoreState.sequence]
  | affects regs bytes off hr =>
    by_cases h0 : off = 0
    · subst h0
      cases haltOpcode with
      | true => exact .ends regs bytes (.halted opv) fun ws presented => by rw [hr, CoreState.sequence, if_pos rfl, if_pos rfl]
      | false =>
        exact .ends regs bytes (.error .unexpectedHaltOpcode c.pc) fun ws presented => by
          rw [hr, CoreState.sequence, if_pos rfl, if_neg Bool.false_ne_true]
          rfl
    · exact .advances regs bytes off fun ws presented => by rw [hr, CoreState.sequence_effect _ _ h0]

/-- The operand checks look at the register file alone. -/
theorem issue_does (c : CoreState p) (usesLhs : Bool) (form : Form) (haltOpcode : Bool) (lhs rhs : Word p.W)
    {handler : CoreState p → Word p.W → Word p.W → HandlerResult p} (hdet : ∀ opv, Determined c (handler · lhs opv)) :
    ActsAlike c (fun c' => c'.issue usesLhs form haltOpcode lhs rhs handler) := by
  rcases c.issue_cases usesLhs form haltOpcode lhs rhs handler with ⟨rfl, hl, _⟩ | ⟨hl, ⟨rfl, hr, _⟩ | ⟨opv, ho, _⟩⟩
  · exact .of_endRun _ fun ws presented => (c.rehost ws presented).issue_lhs_outside hl
  · exact .of_endRun _ fun ws presented => (c.rehost ws presented).issue_rhs_outside hl hr
  · have hruns : ∀ ws presented, (c.rehost ws presented).issue usesLhs form haltOpcode lhs rhs handler =
        (c.rehost ws presented).sequence haltOpcode opv (handler (c.rehost ws presented) lhs opv) :=
      fun ws presented => (c.rehost ws presented).issue_runs hl ho
    cases sequence_does haltOpcode opv (hdet opv) with
    | ends regs bytes o h => exact .ends regs bytes o fun ws presented => (hruns ws presented).trans (h ws presented)
    | advances regs bytes off h => exact .advances regs bytes off fun ws presented => (hruns ws presented).trans (h ws presented)

/-- What an instruction does to `c` it does to every state that differs from `c` in what the host alone changes. -/
theorem exec_does (c : CoreState p) (i : Instr) :
    ∃ s : CoreState p → CoreState p, (∀ c' : CoreState p, exec i ⟨p, c'⟩ = .next ⟨p, s c'⟩) ∧ ActsAlike c s := by
  obtain ⟨usesLhs, form, haltOpcode, handler, hexec, hdet⟩ := exec_uniform (p := p) i
  exact ⟨_, hexec, issue_does c usesLhs form haltOpcode _ _ (hdet c _)⟩

/-- Everything an instruction can have done to its own state. -/
theorem exec_frame {c c' : CoreState p} {i : Instr} (h : exec i ⟨p, c⟩ = .next ⟨p, c'⟩) :
    ∃ regs bytes, (∃ o, c' = (c.affect regs bytes).endRun o) ∨ ∃ off, c' = (c.affect regs bytes).advance off := by
  obtain ⟨s, hexec, hs⟩ := exec_does c i
  obtain rfl : s c = c' := by simpa [hexec] using h
  cases hs with
  | ends regs bytes o h => exact ⟨regs, bytes, .inl ⟨o, h c.prog c.inbox⟩⟩
  | advances regs bytes off h => exact ⟨regs, bytes, .inr ⟨off, h c.prog c.inbox⟩⟩

/-! The advance and the other fields. -/

section advance
variable (c : CoreState p) (off : Word p.W)

@[simp] theorem CoreState.advance_pc : (c.advance off).pc = c.pc + off := by
  rcases c.advance_cases off with ⟨_, h⟩ | ⟨_, h⟩ <;> simp [h]
@[simp] theorem CoreState.advance_regs : (c.advance off).regs = c.regs := by
  rcases c.advance_cases off with ⟨_, h⟩ | ⟨_, h⟩ <;> simp [h]
@[simp] theorem CoreState.advance_out : (c.advance off).out = c.out := by
  rcases c.advance_cases off with ⟨_, h⟩ | ⟨_, h⟩ <;> simp [h]
@[simp] theorem CoreState.advance_steps : (c.advance off).steps = c.steps := by
  rcases c.advance_cases off with ⟨_, h⟩ | ⟨_, h⟩ <;> simp [h]
@[simp] theorem CoreState.advance_strmem : (c.advance off).strmem = c.strmem := by
  rcases c.advance_cases off with ⟨_, h⟩ | ⟨_, h⟩ <;> simp [h]
@[simp] theorem CoreState.advance_rst : (c.advance off).rst = c.rst := by
  rcases c.advance_cases off with ⟨_, h⟩ | ⟨_, h⟩ <;> simp [h]
@[simp] theorem CoreState.advance_inbox : (c.advance off).inbox = c.inbox := by
  rcases c.advance_cases off with ⟨_, h⟩ | ⟨_, h⟩ <;> simp [h]

/-- The advance does not look at the presented transactions. -/
theorem CoreState.advance_presented (ws : List (InstrWord p.W)) (presented presented' : List (HostCommand p.W)) :
    (c.rehost ws presented').advance off = { (c.rehost ws presented).advance off with inbox := presented' } := by
  by_cases h : (c.pc + off).toNat < ws.length
  · rw [(c.rehost ws presented').advance_inside h, (c.rehost ws presented).advance_inside h]
    rfl
  · rw [(c.rehost ws presented').advance_outside (Nat.le_of_not_lt h), (c.rehost ws presented).advance_outside (Nat.le_of_not_lt h)]
    rfl

end advance

/-- What acts alike keeps the presented transactions and does not depend on them. -/
theorem ActsAlike.presented {c : CoreState p} {s : CoreState p → CoreState p} (h : ActsAlike c s)
    (presented : List (HostCommand p.W)) : s { c with inbox := presented } = { s c with inbox := presented } := by
  cases h with
  | ends regs bytes o h =>
    calc s { c with inbox := presented } = ((c.affect regs bytes).rehost c.prog presented).endRun o := h c.prog presented
      _ = { ((c.affect regs bytes).rehost c.prog c.inbox).endRun o with inbox := presented } := rfl
      _ = { s c with inbox := presented } := by rw [← h, c.rehost_self]
  | advances regs bytes off h =>
    calc s { c with inbox := presented } = ((c.affect regs bytes).rehost c.prog presented).advance off := h c.prog presented
      _ = { ((c.affect regs bytes).rehost c.prog c.inbox).advance off with inbox := presented } :=
        (c.affect regs bytes).advance_presented off _ _ _
      _ = { s c with inbox := presented } := by rw [← h, c.rehost_self]

/-! One pass of the run loop. -/

/-- The pass that finds the budget spent (40_dispatch_and_sequencer.md rule R108). -/
theorem step_spent {c : CoreState p} (hr : c.rst = false) (hs : c.status = .running) (hb : p.STEP_BUDGET = some c.steps) :
    step ⟨p, c⟩ = .next ⟨p, c.recorded .budgetExhausted none (some c.pc)⟩ := by
  rw [step_running hs hr, State.runStep, if_pos (by simpa [CoreState.budgetSpent] using hb)]
  rfl

/-- The two ways in which a step of a run has a next state: the budget is spent, or an instruction is executed. -/
theorem step_running_cases {c c' : CoreState p} (hr : c.rst = false) (hs : c.status = .running)
    (h : step ⟨p, c⟩ = .next ⟨p, c'⟩) :
    (p.STEP_BUDGET = some c.steps ∧ c' = c.endRun .budgetExhausted) ∨
      (p.STEP_BUDGET ≠ some c.steps ∧ ∃ w i, c.prog[c.pc.toNat]? = some w ∧ decode w = .instr i ∧
        exec i ⟨p, c.countStep⟩ = .next ⟨p, c'⟩) := by
  rw [step_running hs hr] at h
  rcases State.runStep_cases c with ⟨hb, hrun⟩ | ⟨hb, ⟨_, hrun⟩ | ⟨w, hf, ⟨i, hd, hrun⟩ | ⟨_, hrun⟩⟩⟩ <;>
    rw [hrun] at h
  case inl => exact .inl ⟨hb, by simpa using h.symm⟩
  case inr.inl => cases h
  case inr.inr.inl => exact .inr ⟨hb, w, i, hf, hd, h⟩
  case inr.inr.inr => cases h

/-- What a step of a run leaves: the transactions wait, STRMEM stays, and `out` grows. -/
theorem step_running_frame {c c' : CoreState p} (hr : c.rst = false) (hs : c.status = .running)
    (h : step ⟨p, c⟩ = .next ⟨p, c'⟩) :
    c'.inbox = c.inbox ∧ c'.strmem = c.strmem ∧ ∃ bytes, c'.out = c.out ++ bytes := by
  rcases step_running_cases hr hs h with ⟨_, rfl⟩ | ⟨_, w, i, _, _, hexec⟩
  · exact ⟨rfl, rfl, [], (List.append_nil _).symm⟩
  · obtain ⟨regs, bytes, ⟨o, rfl⟩ | ⟨off, rfl⟩⟩ := exec_frame hexec
    · exact ⟨rfl, rfl, bytes, rfl⟩
    · exact ⟨CoreState.advance_inbox _ _, CoreState.advance_strmem _ _, bytes, CoreState.advance_out _ _⟩

/-- A step of a run does not depend on the presented transactions. -/
theorem step_running_presented {c c' : CoreState p} (presented : List (HostCommand p.W)) (hr : c.rst = false)
    (hs : c.status = .running) (h : step ⟨p, c⟩ = .next ⟨p, c'⟩) :
    step ⟨p, { c with inbox := presented }⟩ = .next ⟨p, { c' with inbox := presented }⟩ := by
  rcases step_running_cases hr hs h with ⟨hb, rfl⟩ | ⟨hb, w, i, hf, hd, hexec⟩
  · exact step_spent (c := { c with inbox := presented }) hr hs hb
  · rw [step_executes_fetched (c := { c with inbox := presented }) hr hs hb hf hd]
    obtain ⟨s, hall, hs⟩ := exec_does c.countStep i
    obtain rfl : s c.countStep = c' := by simpa [hall] using hexec
    rw [hall, ← hs.presented]
    rfl

/-- Settles O46: the frame of a step of a run, and its independence of the inbox. -/
theorem transactionsWaitWhileRunning : Obligations.TransactionsWaitWhileRunning := by
  refine ⟨fun p c c' hs hr h => ?_, fun p c c' presented hs hr h => step_running_presented presented hr hs h⟩
  obtain ⟨hinbox, hstrmem, _⟩ := step_running_frame hr hs h
  exact ⟨hinbox, fun a => by rw [hstrmem]⟩

/-- No transaction writes `out`. -/
theorem CoreState.hostStep_out (c : CoreState p) : c.hostStep.out = c.out := by
  rcases c.hostStep_cases with ⟨_, h⟩ | ⟨cmd, later, _, ⟨_, _, _, _, h⟩ | ⟨_, _, _, h⟩ | ⟨_, _, _, h⟩ |
    ⟨_, _, _, _, h⟩ | ⟨_, h⟩ | ⟨_, _, h⟩⟩ <;> rw [h] <;> rfl

/-- Settles O40: a step of a run appends, and between runs no transaction writes `out`. -/
theorem outputOnlyGrows : Obligations.OutputOnlyGrows := by
  intro p c c' hr h
  by_cases hs : c.status = .running
  · obtain ⟨_, _, bytes, hout⟩ := step_running_frame hr hs h
    exact ⟨bytes, hout, fun hn => absurd hs hn⟩
  · rw [step_stopped hs hr] at h
    obtain rfl : c.hostStep = c' := by simpa using h
    exact ⟨[], by rw [c.hostStep_out, List.append_nil], fun _ => rfl⟩

end Sys2Proof.Machine
end

section
/-! SUPPORT. What an instruction does on a machine with legal parameters, in the two ways of `ExecLeaves`: it ends the run before any effect,
or it makes an effect that its opcode allows and advances. The frame, the outcomes and the precision of errors follow. -/

namespace Sys2Proof.Machine

variable {p : Params}

/-- The effects on the registers and the output that the opcode of `i` allows (10_state.md section 1). -/
structure AllowedEffect (c : CoreState p) (i : Instr) (regs : Vector (Word p.W) p.NREG) (bytes : List Byte) : Prop where
  keepsRegs : ∀ n (h : n < p.NREG), (n ≠ i.lhs % 2 ^ p.W ∨ 10 ≤ opcodeNumber i) → regs[n] = c.regs[n]
  silent : opcodeNumber i ∉ [13, 14] → bytes = []
  noHalt : canEndBy (opcodeNumber i) .programCounter = true

theorem canEndBy_programCounter_iff {n : Nat} (h : n ≤ 18) : canEndBy n .programCounter = true ↔ n ≤ 16 := by
  simp [canEndBy]
  omega

theorem AllowedEffect.of_write (c : CoreState p) (i : Instr) (v : Word p.W) (h : opcodeNumber i ≤ 9) :
    AllowedEffect c i (c.setX (BitVec.ofNat p.W i.lhs) v).regs [] where
  keepsRegs n hn hk := by
    have hne : i.lhs % 2 ^ p.W ≠ n := by omega
    simp [hne]
  silent _ := rfl
  noHalt := (canEndBy_programCounter_iff (by omega)).2 (by omega)

theorem AllowedEffect.of_move (c : CoreState p) (i : Instr) (h : opcodeNumber i ∈ [10, 11, 12, 15, 16]) :
    AllowedEffect c i c.regs [] where
  keepsRegs _ _ _ := rfl
  silent _ := rfl
  noHalt := by
    simp at h
    exact (canEndBy_programCounter_iff (by omega)).2 (by omega)

theorem AllowedEffect.of_print (c : CoreState p) (i : Instr) (bytes : List Byte) (h : opcodeNumber i ∈ [13, 14]) :
    AllowedEffect c i c.regs bytes where
  keepsRegs _ _ _ := rfl
  silent hn := absurd h hn
  noHalt := by
    simp at h
    exact (canEndBy_programCounter_iff (by omega)).2 (by omega)

theorem exec_ends_or_advances (hW : 8 ≤ p.W) (c : CoreState p) (i : Instr) :
    ∃ c', exec i ⟨p, c⟩ = .next ⟨p, c'⟩ ∧
      ((∃ o cause, canEndBy (opcodeNumber i) cause = true ∧ EndsBy p i cause o ∧ cause ≠ .programCounter ∧
          c' = c.endRun o) ∨
        ∃ regs bytes off, AllowedEffect c i regs bytes ∧ off ≠ 0 ∧ c' = (c.affect regs bytes).advance off) := by
  obtain ⟨c', hexec, hleaves⟩ := exec_cases hW c i
  refine ⟨c', hexec, ?_⟩
  cases hleaves with
  | ends o cause h h' hpc => exact .inl ⟨o, cause, h, h', hpc, rfl⟩
  | writes v h => exact .inr ⟨_, [], 1, .of_write c i v h, one_ne_zero_word hW, by rw [CoreState.affect_nil]; rfl⟩
  | moves off h h0 => exact .inr ⟨_, [], off, .of_move c i h, h0, by rw [CoreState.affect_nil]⟩
  | prints bytes h => exact .inr ⟨_, bytes, 1, .of_print c i bytes h, one_ne_zero_word hW, rfl⟩

/-- The advance leaves the status and the words of the run's end alone, or ends the run outside the program. -/
theorem CoreState.advance_status_cases (c : CoreState p) (off : Word p.W) :
    (c.advance off).status = c.status ∧ (c.advance off).outcome = c.outcome ∧ (c.advance off).result = c.result ∧
        (c.advance off).faultPc = c.faultPc ∧ (c.advance off).response = c.response ∨
      c.prog.length ≤ (c.pc + off).toNat ∧ (c.advance off).status = .ended ∧
        (c.advance off).outcome = some (.error .outOfBoundsProgramCounter (c.pc + off)) := by
  rcases c.advance_cases off with ⟨_, h⟩ | ⟨hout, h⟩
  · exact .inl (by simp [h])
  · exact .inr ⟨hout, by rw [h, CoreState.endRun_status], by rw [h, CoreState.endRun_outcome]⟩

/-- Settles O29: the effect that the opcode allows, and the frame of the advance. -/
theorem instructionFrame : Obligations.InstructionFrame := by
  intro p c i hp
  have ⟨hW, _⟩ := hp
  obtain ⟨c', hexec, h⟩ := exec_ends_or_advances hW c i
  refine ⟨c', hexec, ?_⟩
  rcases h with ⟨o, cause, _, _, _, rfl⟩ | ⟨regs, bytes, off, ⟨hkeeps, hsilent, _⟩, _, rfl⟩
  · exact ⟨fun _ _ _ => rfl, ⟨[], (List.append_nil _).symm, fun _ => rfl⟩, rfl, rfl, fun _ => rfl, rfl, rfl,
      fun hn => absurd rfl hn⟩
  · refine ⟨fun n hn hk => ?_, ⟨bytes, by simp, hsilent⟩, by simp, by simp, fun a => by simp, by simp, by simp,
      fun hn => ?_⟩
    · simpa using hkeeps n hn hk
    · rcases (c.affect regs bytes).advance_status_cases off with h | ⟨_, hended, _⟩
      · exact h
      · exact absurd hended hn

/-- No cause of the spec's table is an unexpected halt. -/
theorem EndsBy.ne_unexpectedHalt {i : Instr} {cause : EndCause} {o : RunOutcome p.W} (h : EndsBy p i cause o) (info : Word p.W) :
    o ≠ .error .unexpectedHaltOpcode info := by
  cases h <;> simp

/-- Settles O27: neither a cause of the table nor the advance gives that outcome. -/
theorem unexpectedHaltIsUnreachable : Obligations.UnexpectedHaltIsUnreachable := by
  intro p c c' i hp hc hexec info
  have ⟨hW, _⟩ := hp
  obtain ⟨d, hexec', h⟩ := exec_ends_or_advances hW c i
  obtain rfl : d = c' := by simpa [hexec'] using hexec
  rcases h with ⟨o, cause, _, hends, _, rfl⟩ | ⟨regs, bytes, off, _, _, rfl⟩
  · simpa using hends.ne_unexpectedHalt info
  · rcases (c.affect regs bytes).advance_status_cases off with ⟨_, ho, _⟩ | ⟨_, _, ho⟩
    · exact ho ▸ hc info
    · simp [ho]

/-! Precision (60_exceptions.md section 3). -/

/-- An instruction that moved the pc lands, in any program that has that slot, with the same registers and output. -/
theorem exec_lands {c c' : CoreState p} {i : Instr} {ws : List (InstrWord p.W)} (hexec : exec i ⟨p, c⟩ = .next ⟨p, c'⟩)
    (hmoved : c'.pc ≠ c.pc) (hslot : c'.pc.toNat < ws.length) :
    exec i ⟨p, { c with prog := ws }⟩ = .next ⟨p, { c with prog := ws, regs := c'.regs, out := c'.out, pc := c'.pc }⟩ := by
  obtain ⟨s, hall, hs⟩ := exec_does c i
  obtain rfl : s c = c' := by simpa [hall] using hexec
  cases hs with
  | ends regs bytes o h =>
    have hself : s c = (c.affect regs bytes).endRun o := h c.prog c.inbox
    exact absurd (by rw [hself]; rfl) hmoved
  | advances regs bytes off h =>
    have hself : s c = (c.affect regs bytes).advance off := h c.prog c.inbox
    have hpc : (s c).pc = c.pc + off := by rw [hself, CoreState.advance_pc]; rfl
    rw [hpc] at hslot
    calc exec i ⟨p, { c with prog := ws }⟩ = .next ⟨p, s (c.rehost ws c.inbox)⟩ := hall _
      _ = .next ⟨p, ((c.affect regs bytes).rehost ws c.inbox).setPc (c.pc + off)⟩ := by
        rw [h, CoreState.advance_inside _ hslot]
        rfl
      _ = _ := by rw [hpc, hself, CoreState.advance_regs, CoreState.advance_out]; rfl

/-- Settles O30: an end before any effect records it on the state as it was, and an end by the advance has landed outside. -/
theorem errorsArePrecise : Obligations.ErrorsArePrecise := by
  intro p c c' i o hp hs hexec hended ho
  have ⟨hW, _⟩ := hp
  obtain ⟨d, hexec', h⟩ := exec_ends_or_advances hW c i
  obtain rfl : d = c' := by simpa [hexec'] using hexec
  rcases h with ⟨o', cause, _, hends, hpc, rfl⟩ | ⟨regs, bytes, off, _, h0, rfl⟩
  · obtain rfl : o' = o := by simpa using ho
    cases hends with
    | programCounter t => exact absurd rfl hpc
    | registerLhs _ | registerRhs _ _ | divisionByZero info | printFault a | halt v => exact c.endRun_eq_recorded _
  · rcases (c.affect regs bytes).advance_status_cases off with ⟨hst, _⟩ | ⟨hout, _, ho'⟩
    · rw [hended] at hst
      exact absurd (hst.trans hs) (by simp)
    · obtain rfl : .error .outOfBoundsProgramCounter (c.pc + off) = o := Option.some.inj (ho'.symm.trans ho)
      have hpc : ((c.affect regs bytes).advance off).pc = c.pc + off := CoreState.advance_pc _ _
      refine ⟨hout, ?_, fun ws hslot => ?_⟩
      · rw [CoreState.advance_regs, CoreState.advance_out, CoreState.advance_outside _ hout, CoreState.endRun_eq_recorded]
        rfl
      · have hmoved : c.pc + off ≠ c.pc := by simpa using h0
        have := exec_lands (ws := ws) hexec (hpc ▸ hmoved) (hpc ▸ hslot)
        rwa [hpc] at this

end Sys2Proof.Machine
end

section
/-! SUPPORT. The invariant of legal states under each operation of the machine, and from that under every step: the step of a legal state has a
next state, and that state is legal. A budgeted run ends, by induction on the budget that is left. -/

namespace Sys2Proof.Machine

variable {p : Params}

/-! The operations, one by one. -/

namespace CoreState.Inv

variable {c : CoreState p}

theorem outcome_none (h : c.Inv) (hs : c.status ≠ .ended) : c.outcome = none := by
  have := mt h.outcomeValid.2 hs
  simpa using this

/-- Construct gives a legal state whatever the core was; only STRMEM stays (47_host_operations.md rule R166). -/
theorem construct (hp : p.Valid) (hwf : c.strmem.wf) (hwithin : c.strmem.within p.W) : c.construct.Inv := by
  obtain ⟨-, -, -, hcap, -⟩ := hp
  obtain ⟨hop, -, -⟩ := encode_fields p.W (.ret 0 0)
  exact {
    programNonempty := by simp
    programFits := by simpa using hcap
    opcodesValid := fun w hw => by
      obtain rfl : w = defaultWord p.W := by simpa using hw
      rw [defaultWord, hop]
      decide
    pcInProgram := by simp
    budgetKept := by simp
    outcomeValid := by simp
    resultRecorded := rfl
    faultPcRecorded := rfl
    noUnexpectedHalt := by simp
    strmemCanonical := hwf
    strmemWithin := hwithin }

theorem initial (hp : p.Valid) : (CoreState.initial p).Inv :=
  construct (c := CoreState.initial p) hp List.Pairwise.nil (fun _ hc => nomatch hc)

theorem affect (h : c.Inv) (regs : Vector (Word p.W) p.NREG) (bytes : List Byte) : (c.affect regs bytes).Inv := { h with }

theorem countStep (h : c.Inv) (hb : p.STEP_BUDGET ≠ some c.steps) : c.countStep.Inv :=
  { h with
    budgetKept := fun hs n hn => by
      have hle : c.steps ≤ n := h.budgetKept hs n hn
      have hne : n ≠ c.steps := fun he => hb (he ▸ hn)
      rw [CoreState.countStep_steps]
      omega }

/-- A run may end at any pc, but not by an unexpected halt. -/
theorem setPc_endRun (h : c.Inv) (t : Word p.W) {o : RunOutcome p.W} (ho : ∀ info, o ≠ .error .unexpectedHaltOpcode info) :
    ((c.setPc t).endRun o).Inv :=
  { h with
    pcInProgram := by simp
    budgetKept := by simp
    outcomeValid := by simp
    resultRecorded := rfl
    faultPcRecorded := rfl
    noUnexpectedHalt := by simpa using ho }

theorem endRun (h : c.Inv) {o : RunOutcome p.W} (ho : ∀ info, o ≠ .error .unexpectedHaltOpcode info) : (c.endRun o).Inv :=
  h.setPc_endRun c.pc ho

theorem advance (h : c.Inv) (hs : c.status = .running) (off : Word p.W) : (c.advance off).Inv := by
  rcases c.advance_cases off with ⟨hin, ha⟩ | ⟨_, ha⟩ <;> rw [ha]
  · have hnone : c.outcome = none := h.outcome_none (by simp [hs])
    exact { h with
      pcInProgram := fun _ => hin
      faultPcRecorded := by simpa [hnone] using h.faultPcRecorded }
  · exact h.setPc_endRun _ (by simp)

/-- An accepted transaction, or none, between runs. -/
theorem hostStep (h : c.Inv) (hs : c.status ≠ .running) : c.hostStep.Inv := by
  rcases c.hostStep_cases with ⟨_, he⟩ | ⟨cmd, later, _, ⟨ws, r, _, _, he⟩ | ⟨ws, _, hok, he⟩ | ⟨i, r, _, he⟩ |
    ⟨i, v, r, _, he⟩ | ⟨_, he⟩ | ⟨cells, _, he⟩⟩ <;> rw [he]
  · exact h
  · exact { h with }
  · obtain ⟨hne, hfits, hvalid⟩ := loadRejection_eq_none ws hok
    exact { h with
      programNonempty := hne
      programFits := hfits
      opcodesValid := hvalid
      pcInProgram := fun hr => absurd hr hs }
  · exact { h with }
  · exact { h with }
  · exact { h with
      pcInProgram := fun _ => h.programNonempty
      budgetKept := fun _ n _ => Nat.zero_le n
      outcomeValid := by simp
      resultRecorded := rfl
      faultPcRecorded := rfl
      noUnexpectedHalt := by simp }
  · exact { h with
      strmemCanonical := Memory.ofCells_wf cells
      strmemWithin := Memory.ofCells_within cells }

/-- The fetch of a run finds an instruction (40_dispatch_and_sequencer.md rule R101). -/
theorem fetches (h : c.Inv) (hs : c.status = .running) : ∃ w i, c.prog[c.pc.toNat]? = some w ∧ decode w = .instr i := by
  have hpc := h.pcInProgram hs
  obtain ⟨i, hd, _⟩ := decode_of_opcode_le (h.opcodesValid _ (List.getElem_mem hpc))
  exact ⟨_, i, List.getElem?_eq_getElem hpc, hd⟩

end CoreState.Inv

/-! The steps. -/

/-- An instruction of a run in a legal state leaves a legal state; the run goes on or has ended. -/
theorem exec_keeps_inv (hp : p.Valid) {c : CoreState p} (h : c.Inv) (hs : c.status = .running) (i : Instr) :
    ∃ c', exec i ⟨p, c⟩ = .next ⟨p, c'⟩ ∧ c'.Inv ∧ (c'.status = .running ∨ c'.status = .ended) ∧ c'.steps = c.steps ∧
      c'.rst = c.rst := by
  have ⟨hW, _⟩ := hp
  obtain ⟨c', hexec, hc'⟩ := exec_ends_or_advances hW c i
  refine ⟨c', hexec, ?_⟩
  rcases hc' with ⟨o, cause, _, hends, _, rfl⟩ | ⟨regs, bytes, off, _, _, rfl⟩
  · exact ⟨h.endRun hends.ne_unexpectedHalt, .inr rfl, rfl, rfl⟩
  · refine ⟨(h.affect regs bytes).advance hs off, ?_, by simp, by simp⟩
    rcases (c.affect regs bytes).advance_status_cases off with ⟨hst, _⟩ | ⟨_, hst, _⟩
    · exact .inl (hst.trans hs)
    · exact .inr hst

/-- A step of a run in a legal state with budget left executes one instruction. -/
theorem step_executes (hp : p.Valid) {c : CoreState p} (h : c.Inv) (hs : c.status = .running) (hr : c.rst = false)
    (hb : p.STEP_BUDGET ≠ some c.steps) :
    ∃ c', step ⟨p, c⟩ = .next ⟨p, c'⟩ ∧ c'.Inv ∧ (c'.status = .running ∨ c'.status = .ended) ∧ c'.steps = c.steps + 1 ∧
      c'.rst = false := by
  obtain ⟨w, i, hf, hd⟩ := h.fetches hs
  obtain ⟨c', hexec, hinv, hst, hsteps, hrst⟩ := exec_keeps_inv hp (h.countStep hb) hs i
  exact ⟨c', (step_executes_fetched hr hs hb hf hd).trans hexec, hinv, hst, hsteps, hrst.trans hr⟩

/-- Progress and preservation at once. -/
theorem step_of_inv (hp : p.Valid) {c : CoreState p} (h : c.Inv) : ∃ c', step ⟨p, c⟩ = .next ⟨p, c'⟩ ∧ c'.Inv := by
  rcases step_cases c with ⟨_, hstep⟩ | ⟨hr, hs, _⟩ | ⟨_, hs, hstep⟩
  · exact ⟨_, hstep, .construct hp h.strmemCanonical h.strmemWithin⟩
  · by_cases hb : p.STEP_BUDGET = some c.steps
    · exact ⟨_, step_spent hr hs hb, h.endRun (o := .budgetExhausted) (by simp)⟩
    · obtain ⟨c', hstep, hinv, _⟩ := step_executes hp h hs hr hb
      exact ⟨c', hstep, hinv⟩
  · exact ⟨_, hstep, h.hostStep hs⟩

/-- Settles O36: the one next state that the step of a legal state has is legal. -/
theorem stepKeepsLegalStates : Obligations.StepKeepsLegalStates := by
  intro ⟨p, c⟩ t ⟨hp, h⟩ hstep
  obtain ⟨c', hstep', hinv⟩ := step_of_inv hp h
  obtain rfl : ⟨p, c'⟩ = t := by simpa [hstep'] using hstep
  exact ⟨⟨hp, hinv⟩, rfl⟩

/-- Settles O37: the fetch of a run finds an instruction, every instruction has a next state, and so does the host's side. -/
theorem legalStatesNeverStop : Obligations.LegalStatesNeverStop := by
  intro ⟨p, c⟩ ⟨hp, h⟩
  obtain ⟨c', hstep, hinv⟩ := step_of_inv hp h
  exact ⟨_, hstep, hp, hinv⟩

/-- Settles O35: construction from the empty STRMEM; the reference parameters are legal. -/
theorem resetStateIsLegal : Obligations.ResetStateIsLegal :=
  ⟨fun _ hp => ⟨hp, .initial hp⟩, ⟨by decide, .initial (by decide)⟩, rfl⟩

/-! Runs. -/

/-- A run of `k + 1` steps is a step and a run of `k`. -/
theorem run_succ {s t : State} (k : Nat) (h : step s = .next t) : Sys2Proof.core.run (k + 1) s = Sys2Proof.core.run k t := by
  have hcore : Sys2Proof.core.step s = .next t := h
  simp only [Host.Core.run, hcore]

/-- A run that has ended: recorded, and within its budget. -/
def CoreState.EndedWithin (c : CoreState p) (n : Nat) : Prop := c.status = .ended ∧ c.outcome.isSome ∧ c.steps ≤ n

/-- With `m` of the budget left, a run ends within `m + 1` steps: one for each instruction left, and one that finds the budget spent. -/
theorem run_ends (hp : p.Valid) {n : Nat} (hn : p.STEP_BUDGET = some n) (m : Nat) (c : CoreState p) (h : c.Inv)
    (hs : c.status = .running) (hr : c.rst = false) (hm : c.steps + m = n) :
    ∃ k c', k ≤ m + 1 ∧ Sys2Proof.core.run k ⟨p, c⟩ = .next ⟨p, c'⟩ ∧ c'.EndedWithin n := by
  induction m generalizing c with
  | zero => exact ⟨1, _, Nat.le_refl 1, run_succ 0 (step_spent hr hs (hn.trans (congrArg some hm.symm))), rfl, rfl, hm.le⟩
  | succ m ih =>
    have hb : p.STEP_BUDGET ≠ some c.steps := by
      rw [hn, Ne, Option.some.injEq]
      omega
    obtain ⟨c', hstep, hinv, hst | hst, hsteps, hrst⟩ := step_executes hp h hs hr hb
    · obtain ⟨k, c'', hk, hrun, hend⟩ := ih c' hinv hst hrst (by omega)
      exact ⟨k + 1, c'', by omega, (run_succ k hstep).trans hrun, hend⟩
    · exact ⟨1, c', by omega, run_succ 0 hstep, hst, hinv.outcomeValid.1 hst, by omega⟩

/-- Settles O38: the budget left is what the invariant leaves of `n`. -/
theorem budgetedRunsEnd : Obligations.BudgetedRunsEnd := by
  intro p c n ⟨hp, h⟩ hs hr hn
  have hle : c.steps ≤ n := h.budgetKept hs n hn
  exact run_ends hp hn (n - c.steps) c h hs hr (by omega)

/-- Settles O34: the pass that finds the budget spent. -/
theorem spentBudgetEndsTheRun : Obligations.SpentBudgetEndsTheRun :=
  fun _ _ hr hs hb => step_spent hr hs hb

/-- Settles O32: the decoder answers well-formed instructions, and the pass executes the one it fetched. -/
theorem stepRunsTheDecodedInstruction : Obligations.StepRunsTheDecodedInstruction :=
  fun _ _ _ _ hr hs hb hf hd => ⟨wellFormed_of_decode hd, step_executes_fetched hr hs hb hf hd⟩

/-- Settles O33: the placed word is the one fetched at slot 0, and no step is counted yet. -/
theorem placedWordRunsFirst : Obligations.PlacedWordRunsFirst := by
  intro p c nbits w i hb hd
  exact ⟨(c.placeFirst (BitVec.ofNat _ (w % 2 ^ nbits))).countStep, rfl, rfl, rfl, rfl, rfl,
    step_executes_fetched (c := c.placeFirst _) rfl rfl hb rfl hd⟩

theorem step_reset {c : CoreState p} (hr : c.rst = true) : step ⟨p, c⟩ = .next ⟨p, c.construct⟩ := if_pos hr

/-- Settles O45: Construct, while the line is high, before anything else. -/
theorem resetActsAtAnyTime : Obligations.ResetActsAtAnyTime := fun _ _ hr => step_reset hr

theorem exec_ret_halts (hp : p.Valid) (c : CoreState p) (l : Nat) {r : Nat} (hr : r < p.NREG) :
    exec (.ret l r) ⟨p, c⟩ = .next ⟨p, c.recorded (.halted c.regs[r]) (some c.regs[r]) none⟩ := by
  rw [exec_ret_eq, CoreState.issue_halt (c.operand_field hp hr)]

/-- Settles O22: the halt with the register's content, an index outside the file by the register access contract, and the default program's
one instruction after the Run. -/
theorem retHaltsWithTheRegister : Obligations.RetHaltsWithTheRegister := by
  intro p c l r hp hw
  obtain ⟨-, -, -, -, hrhs⟩ := registerFileContract p c hp
  refine ⟨encode_opcode_bits p.W (.ret l r), fun hr => exec_ret_halts hp c l hr,
    fun hr => hrhs (.ret l r) hw rfl hr fun hu => absurd hu (by simp [opcodeNumber]), fun h0 v hb => ?_⟩
  have hd : decode (defaultWord p.W) = .instr (.ret 0 0) :=
    decode_encode ⟨Nat.two_pow_pos p.W, Nat.two_pow_pos p.W⟩
  have hrun := step_performs (c := { CoreState.initial p with regs := (CoreState.initial p).regs.set 0 v h0, inbox := [.run] })
    (by simp [CoreState.initial]) rfl rfl
  refine ⟨_, (run_succ 1 hrun).trans (run_succ 0 ((step_executes_fetched rfl rfl hb rfl hd).trans (exec_ret_halts hp _ 0 h0))), ?_⟩
  simp [CoreState.initial, CoreState.perform]

end Sys2Proof.Machine
end

section
/-! SUPPORT. The host's transactions (47_host_operations.md): the checks of a Load in their order, RegSet, Run, the supplying of STRMEM, and what
of the pc and the step count a transaction lets through to the host. -/

namespace Sys2Proof.Machine

variable {p : Params}

/-! The checks of a Load (47_host_operations.md rule R162). -/

section load
variable {ws : List (InstrWord p.W)}

theorem loadRejection_empty (h : ws.length = 0) : loadRejection p ws = some .empty := if_pos h

theorem loadRejection_tooLong (h0 : ws.length ≠ 0) (h : p.PROG_CAP < ws.length) : loadRejection p ws = some .tooLong := by
  rw [loadRejection, if_neg h0, if_pos h]

theorem loadRejection_of_fits (h0 : ws.length ≠ 0) (h : ws.length ≤ p.PROG_CAP) :
    loadRejection p ws = (firstInvalid ws).map .invalidOpcode := by
  rw [loadRejection, if_neg h0, if_neg (Nat.not_lt.2 h)]

/-- The least slot with an invalid opcode. -/
theorem firstInvalid_eq_some {W : Nat} {ws : List (InstrWord W)} {k : Nat} (hk : k < ws.length)
    (hbad : 19 ≤ (opcodeField ws[k]).toNat) (hleast : ∀ j (hj : j < k), (opcodeField ws[j]).toNat ≤ 18) :
    firstInvalid ws = some k := by
  rw [firstInvalid, List.findIdx?_eq_some_iff_getElem]
  refine ⟨hk, by simpa using hbad, fun j hj => ?_⟩
  have := hleast j hj
  simp only [decide_eq_true_eq]
  omega

theorem firstInvalid_eq_none {W : Nat} {ws : List (InstrWord W)} (h : ∀ w ∈ ws, (opcodeField w).toNat ≤ 18) :
    firstInvalid ws = none := by
  rw [firstInvalid, List.findIdx?_eq_none_iff]
  intro w hw
  have := h w hw
  simp only [decide_eq_false_iff_not]
  omega

end load

/-- A Load that a check refuses changes nothing but the response. -/
theorem CoreState.load_rejected (c : CoreState p) {ws : List (InstrWord p.W)} {r : LoadRejection}
    (h : loadRejection p ws = some r) : c.load ws = { c with response := some (.loadRejected r) } := by
  simp only [CoreState.load, h]

theorem CoreState.load_accepted (c : CoreState p) {ws : List (InstrWord p.W)} (h : loadRejection p ws = none) :
    c.load ws = { c with prog := ws, response := some .ok } := by
  simp only [CoreState.load, h]

@[simp] theorem CoreState.perform_load (c : CoreState p) (ws : List (InstrWord p.W)) : c.perform (.load ws) = c.load ws := rfl

/-- Settles O41: the checks of a Load in their order, and the Load that passes them. -/
theorem loadIsAllOrNothing : Obligations.LoadIsAllOrNothing := by
  intro p c ws later hs hr hi
  rw [step_performs hs hr hi, CoreState.perform_load]
  refine ⟨fun h => ?_, fun h0 h => ?_, fun h0 h k hk hbad hleast => ?_, fun h0 h hvalid => ?_⟩
  · rw [CoreState.load_rejected _ (loadRejection_empty h)]
  · rw [CoreState.load_rejected _ (loadRejection_tooLong h0 h)]
  · have hrej : loadRejection p ws = some (.invalidOpcode k) := by
      rw [loadRejection_of_fits h0 h, firstInvalid_eq_some hk hbad hleast, Option.map_some]
    rw [CoreState.load_rejected _ hrej]
  · have hok : loadRejection p ws = none := by
      rw [loadRejection_of_fits h0 h, firstInvalid_eq_none hvalid, Option.map_none]
    rw [CoreState.load_accepted _ hok]

@[simp] theorem CoreState.perform_regSet (c : CoreState p) (i v : Word p.W) : c.perform (.regSet i v) = c.regSet i v := rfl

/-- The other half of `CoreState.regSet_outside`. -/
theorem CoreState.regSet_inside (c : CoreState p) {i : Word p.W} (v : Word p.W) (h : i.toNat < p.NREG) :
    c.regSet i v = { c with regs := c.regs.set i.toNat v h, response := some .ok } := by
  rw [CoreState.regSet, if_pos ((c.inFile_iff i).2 h), c.setX_eq i v h]

/-- Settles O43: the RegSet at the head of the inbox is performed, and its index is inside the file or outside it. -/
theorem regSetWritesTheRegister : Obligations.RegSetWritesTheRegister := by
  intro p c i v later hs hr hi
  rw [step_performs hs hr hi, CoreState.perform_regSet]
  constructor
  · intro hin
    rw [CoreState.regSet_inside _ v hin]
  · intro hout
    rw [CoreState.regSet_outside _ v hout]

/-- Settles O44: the Run at the head of the inbox is performed as `startRun`. -/
theorem runStartsAtSlotZero : Obligations.RunStartsAtSlotZero :=
  fun _ _ _ hs hr hi => step_performs hs hr hi

/-- Settles O48: no transaction is there to accept. -/
theorem idleMachineStays : Obligations.IdleMachineStays := by
  intro p c hs hr hi
  rw [step_stopped hs hr, CoreState.hostStep, hi]

/-! The supplied string memory (20_memory.md rule R53). -/

section cells
variable {W : Nat} {cells : List (Word W × Byte)} {a : Nat}

theorem Memory.read_ofCells_last {n : Nat} (hn : n < cells.length) (ha : cells[n].1.toNat = a)
    (hlast : ∀ k (hk : k < cells.length), n < k → cells[k].1.toNat ≠ a) : (Memory.ofCells cells).read a = some cells[n].2 := by
  have hfind : cells.reverse.find? (fun cell => cell.1.toNat == a) = some cells[n] := by
    rw [List.find?_eq_some_iff_getElem]
    refine ⟨by simpa using ha, cells.length - 1 - n, by simp; omega, ?_, fun k hk => ?_⟩
    · simp only [List.getElem_reverse]
      congr 1
      omega
    · simpa using hlast (cells.length - 1 - k) (by omega) (by omega)
  rw [Memory.read_ofCells, hfind, Option.map_some]

theorem Memory.read_ofCells_none (h : ∀ cell ∈ cells, cell.1.toNat ≠ a) : (Memory.ofCells cells).read a = none := by
  rw [Memory.read_ofCells, Option.map_eq_none_iff, List.find?_eq_none]
  simpa using h

end cells

/-- Settles O51: the memory is the one of the cells, in which the last cell for an address counts. -/
theorem suppliedStringsAreReadBack : Obligations.SuppliedStringsAreReadBack :=
  fun _ _ cells _ hs hr hi =>
    ⟨Memory.ofCells cells, step_performs hs hr hi, Memory.ofCells_wf cells, Memory.ofCells_within cells,
      fun _ => ⟨fun _ hn ha hlast => Memory.read_ofCells_last hn ha hlast, Memory.read_ofCells_none⟩⟩

/-! The pc and the step count between runs (10_state.md section 2). -/

/-- `c` with another pc and another step count: the words that are hidden from the host. -/
def CoreState.rehide (c : CoreState p) (pc : Word p.W) (steps : Nat) : CoreState p := { c with pc := pc, steps := steps }

theorem CoreState.hostView_rehide (c : CoreState p) (pc : Word p.W) (steps : Nat) : (c.rehide pc steps).hostView = c.hostView := rfl

/-- Every transaction but a Run keeps the hidden words and does not depend on them; a Run overwrites them. -/
theorem CoreState.perform_rehide (c : CoreState p) (cmd : HostCommand p.W) (pc : Word p.W) (steps : Nat) :
    (c.perform cmd).status = c.status ∧ (c.rehide pc steps).perform cmd = (c.perform cmd).rehide pc steps ∨
      (c.rehide pc steps).perform cmd = c.perform cmd := by
  cases cmd with
  | load ws =>
    cases hr : loadRejection p ws with
    | some r => exact .inl (by simp only [perform_load, CoreState.load_rejected _ hr]; exact ⟨trivial, rfl⟩)
    | none => exact .inl (by simp only [perform_load, CoreState.load_accepted _ hr]; exact ⟨trivial, rfl⟩)
  | regGet i => exact .inl ⟨rfl, rfl⟩
  | regSet i v =>
    by_cases h : i.toNat < p.NREG
    · exact .inl (by simp only [perform_regSet, CoreState.regSet_inside _ v h]; exact ⟨trivial, rfl⟩)
    · exact .inl (by simp only [perform_regSet, CoreState.regSet_outside _ v (Nat.le_of_not_lt h)]; exact ⟨trivial, rfl⟩)
  | run => exact .inr rfl
  | supplyStrmem cells => exact .inl ⟨rfl, rfl⟩

theorem CoreState.hostStep_rehide (c : CoreState p) (pc : Word p.W) (steps : Nat) :
    c.hostStep.status = c.status ∧ (c.rehide pc steps).hostStep = c.hostStep.rehide pc steps ∨
      (c.rehide pc steps).hostStep = c.hostStep := by
  cases hi : c.inbox with
  | nil =>
    have hi' : (c.rehide pc steps).inbox = [] := hi
    simp only [CoreState.hostStep, hi, hi']
    exact .inl ⟨trivial, trivial⟩
  | cons cmd later =>
    have hi' : (c.rehide pc steps).inbox = cmd :: later := hi
    simp only [CoreState.hostStep, hi, hi']
    exact CoreState.perform_rehide { c with inbox := later } cmd pc steps

/-- Settles O47: Construct and a Run overwrite the hidden words, every other transaction keeps them. -/
theorem hostCannotSeeThePc : Obligations.HostCannotSeeThePc := by
  intro p c c' pc steps hs h
  rcases step_cases c with ⟨hr, hstep⟩ | ⟨_, hs', _⟩ | ⟨hr, _, hstep⟩
  · obtain rfl : c.construct = c' := by simpa [hstep] using h
    exact ⟨_, step_reset (c := c.rehide pc steps) hr, rfl, rfl, fun _ => rfl⟩
  · exact absurd hs' hs
  · obtain rfl : c.hostStep = c' := by simpa [hstep] using h
    refine ⟨_, step_stopped (c := c.rehide pc steps) hs hr, ?_⟩
    rcases c.hostStep_rehide pc steps with ⟨hst, he⟩ | he <;> rw [he]
    · exact ⟨rfl, c.hostStep.hostView_rehide pc steps, fun hrun => absurd (hst.symm.trans hrun) hs⟩
    · exact ⟨rfl, rfl, fun _ => rfl⟩

end Sys2Proof.Machine
end

section
/-! SUPPORT. The string read (44_print.md section 1): `string_at` by the place of the first NUL that a reader of mapped addresses meets. -/

namespace Sys2Proof.Machine

/-- A NUL at `a + k`, with every address up to it mapped, and none of them past the last (44_print.md rule R140). -/
def Memory.NulAt {W : Nat} (m : Memory) (a : Word W) (k : Nat) : Prop :=
  a.toNat + k ≤ 2 ^ W - 1 ∧ (∀ n ≤ k, (m.read (a.toNat + n)).isSome) ∧ m.read (a.toNat + k) = some 0

section
variable {W : Nat} {m : Memory} {a : Word W}

theorem Memory.NulAt.of_bytes {bytes : List Byte} (hlen : bytes.length < 2 ^ W - a.toNat)
    (hnul : m.read (a.toNat + bytes.length) = some 0)
    (hbytes : ∀ n (h : n < bytes.length), m.read (a.toNat + n) = some bytes[n]) : m.NulAt a bytes.length := by
  refine ⟨by omega, fun n hn => ?_, hnul⟩
  rcases hn.lt_or_eq with hlt | rfl
  · rw [hbytes n hlt, Option.isSome_some]
  · rw [hnul, Option.isSome_some]

/-- The string at `a` is what stands before the first NUL. -/
theorem Memory.stringAt_eq_some_iff (bytes : List Byte) :
    m.stringAt a = some bytes ↔ m.NulAt a bytes.length ∧ (∀ k, m.NulAt a k → bytes.length ≤ k) ∧
      ∀ n (h : n < bytes.length), m.read (a.toNat + n) = some bytes[n] := by
  rw [Memory.stringAt, Memory.scan_eq_some]
  constructor
  · rintro ⟨hlen, hnul, hbytes⟩
    refine ⟨.of_bytes hlen hnul fun n hn => (hbytes n hn).2, fun k ⟨_, _, hk⟩ => ?_, fun n hn => (hbytes n hn).2⟩
    by_contra hlt
    obtain ⟨hne, hread⟩ := hbytes k (by omega)
    exact hne (Option.some.inj (hread.symm.trans hk))
  · rintro ⟨⟨hlen, hmapped, hnul⟩, hleast, hbytes⟩
    have ha := a.isLt
    refine ⟨by omega, hnul, fun n hn => ⟨fun h0 => ?_, hbytes n hn⟩⟩
    have hn0 : m.NulAt a n := ⟨by omega, fun k hk => hmapped k (by omega), by rw [hbytes n hn, h0]⟩
    have := hleast n hn0
    omega

/-- A NUL that a reader meets makes a string: the bytes before the least one. -/
theorem Memory.stringAt_isSome_of_nulAt {k : Nat} (h : m.NulAt a k) : ∃ bytes, m.stringAt a = some bytes := by
  classical
  have hex : ∃ k, m.NulAt a k := ⟨k, h⟩
  obtain ⟨-, hmapped, -⟩ := Nat.find_spec hex
  refine ⟨List.ofFn fun n : Fin (Nat.find hex) => (m.read (a.toNat + n)).getD 0, (m.stringAt_eq_some_iff _).2 ⟨?_, ?_, ?_⟩⟩
  · simpa using Nat.find_spec hex
  · intro k hk
    simpa using Nat.find_min' hex hk
  · intro n hn
    obtain ⟨b, hb⟩ := Option.isSome_iff_exists.1 (hmapped n (le_of_lt (by simpa only [List.length_ofFn] using hn)))
    simp [hb]

end

/-- Settles O24: the scan by the first NUL. -/
theorem stringAtEndsAtTheFirstNul : Obligations.StringAtEndsAtTheFirstNul := by
  intro W m a
  refine ⟨fun bytes => Memory.stringAt_eq_some_iff bytes, ?_⟩
  constructor
  · rintro hnone ⟨k, hk⟩
    obtain ⟨bytes, hsome⟩ := Memory.stringAt_isSome_of_nulAt (m := m) (a := a) hk
    simp [hnone] at hsome
  · intro hno
    cases hs : m.stringAt a with
    | none => rfl
    | some bytes => exact absurd ⟨_, ((Memory.stringAt_eq_some_iff bytes).1 hs).1⟩ hno

end Sys2Proof.Machine
end

section
/-! SUPPORT. The offset of a jump as a number (45_jump.md section 1), and from it the two readings of the pc update and the displacement of a
label. -/

namespace Sys2Proof.Machine

variable {p : Params}

section offset
variable {W : Nat} {d : Word W}

theorem two_pow_eq_double (hW : 8 ≤ W) : 2 ^ W = 2 * 2 ^ (W - 1) := by
  rw [← Nat.pow_succ']
  congr 1
  omega

/-- The two kinds of displacement: forward, with the offset one more than it, and backward, with the offset itself. -/
theorem displacement_cases (hW : 8 ≤ W) (d : Word W) :
    (signed d = d.toNat ∧ d.toNat < 2 ^ (W - 1) ∧ (jumpOffset d).toNat = d.toNat + 1) ∨
      (signed d = (d.toNat : Int) - 2 ^ W ∧ 2 ^ (W - 1) ≤ d.toNat ∧ jumpOffset d = d) := by
  have h2 := two_pow_eq_double hW
  have hpos : 2 ^ 7 ≤ 2 ^ (W - 1) := Nat.pow_le_pow_right (by omega) (by omega)
  have hmsb := d.msb_eq_decide
  cases hm : d.msb with
  | false =>
    have hd : d.toNat < 2 ^ (W - 1) := by simpa [hm] using hmsb
    refine .inl ⟨by simp [signed, hm], hd, ?_⟩
    have h1 : (1 : Word W).toNat = 1 := toNat_ofNat_of_field (show 1 < 2 ^ W by omega)
    rw [jumpOffset, hm, if_neg Bool.false_ne_true, BitVec.toNat_add, h1, Nat.mod_eq_of_lt (by omega)]
  | true =>
    have hd : 2 ^ (W - 1) ≤ d.toNat := by simpa [hm] using hmsb
    exact .inr ⟨by simp [signed, hm], hd, by rw [jumpOffset, hm, if_pos rfl]⟩

end offset

/-- Settles O26: by the two kinds of displacement. -/
theorem jumpsNeverHaltOrStay : Obligations.JumpsNeverHaltOrStay := by
  refine ⟨fun W d a hW => ⟨jumpOffset_ne_zero hW d, ?_, ?_⟩, fun W hW => ?_⟩
  · simpa using jumpOffset_ne_zero hW d
  · have hlt : (d.toNat : Int) < 2 ^ W := by exact_mod_cast d.isLt
    rcases displacement_cases hW d with ⟨hs, hd, ho⟩ | ⟨hs, hd, ho⟩
    · rw [hs, ho]
      exact ⟨fun _ => ⟨by omega, hd⟩, fun hneg => by omega⟩
    · rw [hs, ho]
      exact ⟨fun hpos => by omega, fun _ => hd⟩
  · have h2 := two_pow_eq_double hW
    have hpos : 0 < 2 ^ (W - 1) := Nat.two_pow_pos _
    have hmax : (BitVec.ofNat W (2 ^ (W - 1) - 1)).toNat = 2 ^ (W - 1) - 1 := toNat_ofNat_of_field (by omega)
    have hmin : (BitVec.ofNat W (2 ^ (W - 1))).toNat = 2 ^ (W - 1) := toNat_ofNat_of_field (by omega)
    apply BitVec.eq_of_toNat_eq
    rcases displacement_cases hW (BitVec.ofNat W (2 ^ (W - 1) - 1)) with ⟨_, _, hfwd⟩ | ⟨_, h, _⟩
    · rcases displacement_cases hW (BitVec.ofNat W (2 ^ (W - 1))) with ⟨_, h, _⟩ | ⟨_, _, hbwd⟩
      · omega
      · rw [hfwd, hbwd]
        omega
    · omega

/-! The landing slot of a jump from inside a program that fits its store (40_dispatch_and_sequencer.md section 2). -/

section landing
variable {c : CoreState p} {d : Word p.W}

theorem pc_lt_half (hp : p.Valid) (hfits : c.prog.length ≤ p.PROG_CAP) (hpc : c.pc.toNat < c.prog.length) :
    c.pc.toNat < 2 ^ (p.W - 1) ∧ c.prog.length ≤ 2 ^ (p.W - 1) := by
  obtain ⟨-, -, -, -, hcap⟩ := hp
  exact ⟨hpc.trans_le (hfits.trans hcap), hfits.trans hcap⟩

/-- A forward jump does not wrap. -/
theorem forward_landing (hW : 8 ≤ p.W) (hpc : c.pc.toNat < 2 ^ (p.W - 1)) (hd : d.toNat < 2 ^ (p.W - 1))
    (ho : (jumpOffset d).toNat = d.toNat + 1) : (c.pc + jumpOffset d).toNat = c.pc.toNat + d.toNat + 1 := by
  have h2 := two_pow_eq_double hW
  rw [BitVec.toNat_add, ho, Nat.mod_eq_of_lt (by omega), Nat.add_assoc]

/-- A backward jump wraps exactly where it stays in the program store: otherwise it lands beyond every store. -/
theorem backward_landing (ho : jumpOffset d = d) :
    (c.pc + jumpOffset d).toNat =
      if 2 ^ p.W ≤ c.pc.toNat + d.toNat then c.pc.toNat + d.toNat - 2 ^ p.W else c.pc.toNat + d.toNat := by
  have hpc := c.pc.isLt
  have hd := d.isLt
  rw [BitVec.toNat_add, ho]
  split
  · next h => rw [Nat.mod_eq_sub_mod h, Nat.mod_eq_of_lt (by omega)]
  · next h => exact Nat.mod_eq_of_lt (by omega)

end landing

/-- Settles O25: a forward jump does not wrap, and a backward jump wraps exactly where the signed sum is a slot. -/
theorem pcUpdateReadingsAgree : Obligations.PcUpdateReadingsAgree := by
  intro p c d hp hfits hpc
  have ⟨hW, _⟩ := hp
  obtain ⟨hhalf, hlen⟩ := pc_lt_half hp hfits hpc
  have hd := d.isLt
  have hcast : ((2 ^ p.W : Nat) : Int) = 2 ^ p.W := by norm_cast
  rcases displacement_cases hW d with ⟨hs, hlt, ho⟩ | ⟨hs, hge, ho⟩
  · rw [hs, if_pos (by omega), forward_landing hW hhalf hlt ho]
    omega
  · rw [hs, if_neg (by omega), backward_landing ho]
    split <;> omega

/-- Where the displacement of a label lands: on the label (30_encoding.md rule R85). -/
theorem labelDisplacement_lands (hp : p.Valid) {c : CoreState p} {t : Nat} (hfits : c.prog.length ≤ p.PROG_CAP)
    (hpc : c.pc.toNat < c.prog.length) (ht : t < c.prog.length) (hne : t ≠ c.pc.toNat) :
    ∃ k, labelDisplacement p.W c.pc.toNat t = some k ∧ c.pc + jumpOffset (BitVec.ofNat p.W k) = BitVec.ofNat p.W t := by
  have ⟨hW, _⟩ := hp
  obtain ⟨hhalf, hlen⟩ := pc_lt_half hp hfits hpc
  have h2 := two_pow_eq_double hW
  have htW : (BitVec.ofNat p.W t).toNat = t := toNat_ofNat_of_field (by omega)
  rw [labelDisplacement]
  rcases Nat.lt_or_gt_of_ne hne with hback | hfwd
  · refine ⟨_, by rw [if_neg (by omega), if_pos hback], BitVec.eq_of_toNat_eq ?_⟩
    have hk : (BitVec.ofNat p.W (2 ^ p.W - (c.pc.toNat - t))).toNat = 2 ^ p.W - (c.pc.toNat - t) :=
      toNat_ofNat_of_field (by omega)
    rcases displacement_cases hW (BitVec.ofNat p.W (2 ^ p.W - (c.pc.toNat - t))) with ⟨_, hd, _⟩ | ⟨_, _, ho⟩
    · omega
    · rw [backward_landing ho, if_pos (by omega), htW]
      omega
  · refine ⟨_, if_pos hfwd, BitVec.eq_of_toNat_eq ?_⟩
    have hk : (BitVec.ofNat p.W (t - c.pc.toNat - 1)).toNat = t - c.pc.toNat - 1 := toNat_ofNat_of_field (by omega)
    rcases displacement_cases hW (BitVec.ofNat p.W (t - c.pc.toNat - 1)) with ⟨_, hd, ho⟩ | ⟨_, hd, _⟩
    · rw [forward_landing hW hhalf hd ho, htW]
      omega
    · omega

/-- What the assembler makes of a `jmpc` to a label. -/
theorem assemble_jmpc_label {labels : List (String × Nat)} {name : String} {t : Nat} (W j : Nat)
    (h : labels.lookup name = some t) :
    AsmInstr.assemble W labels j ⟨"jmpc", [.label name]⟩ = (labelDisplacement W j t).map (.jmpc 0) := by
  have hm : mnemonics.idxOf "jmpc" = 16 := by decide
  simp only [AsmInstr.assemble, hm, h]
  cases hk : labelDisplacement W j t <;> simp [hk]

/-- Settles O50: the displacement of the label lands on it; a label of the jump's own slot has none. -/
theorem labelJumpsLandOnTheLabel : Obligations.LabelJumpsLandOnTheLabel := by
  intro p c name t labels hp hfits hpc ht hlookup
  rw [assemble_jmpc_label _ _ hlookup]
  refine ⟨fun hne => ?_, fun he => ?_⟩
  · obtain ⟨k, hk, hlands⟩ := labelDisplacement_lands hp hfits hpc ht hne
    have hin : (c.pc + jumpOffset (BitVec.ofNat p.W k)).toNat < c.prog.length := by
      rw [hlands, BitVec.toNat_ofNat]
      exact (Nat.mod_le _ _).trans_lt ht
    exact ⟨_, by rw [hk, Option.map_some], by rw [exec_move_completes (exec_jmpc_moves hp) hin, hlands]⟩
  · simp [labelDisplacement, he]

end Sys2Proof.Machine
end

section
/-! SUPPORT. The summary table of 60_exceptions.md section 6. Each of its entries is shown on one legal RUNNING machine, whose program is one
slot, so that every advance leaves it; register 0 holds the divisor 0 and an unmapped address, register 1 the divisor 1 and a mapped one. -/

namespace Sys2Proof.Machine

variable {p : Params}

/-- An end before any effect has a cause of the table, and the advance has the column OOBPC. -/
theorem ending_cause_in_table (hp : p.Valid) {c c' : CoreState p} {i : Instr} {o : RunOutcome p.W} (hs : c.status = .running)
    (hexec : exec i ⟨p, c⟩ = .next ⟨p, c'⟩) (hended : c'.status = .ended) (ho : c'.outcome = some o) :
    ∃ cause, canEndBy (opcodeNumber i) cause = true ∧ EndsBy p i cause o := by
  have ⟨hW, _⟩ := hp
  obtain ⟨d, hexec', h⟩ := exec_ends_or_advances hW c i
  obtain rfl : d = c' := by simpa [hexec'] using hexec
  rcases h with ⟨o', cause, hcan, hends, _, rfl⟩ | ⟨regs, bytes, off, heffect, _, rfl⟩
  · obtain rfl : o' = o := by simpa using ho
    exact ⟨cause, hcan, hends⟩
  · rcases (c.affect regs bytes).advance_status_cases off with ⟨hst, _⟩ | ⟨_, _, ho'⟩
    · rw [hended] at hst
      exact absurd (hst.trans hs) (by simp)
    · obtain rfl := Option.some.inj (ho'.symm.trans ho)
      exact ⟨.programCounter, heffect.noHalt, .programCounter _⟩

/-- The machine of the table's witnesses. -/
def tableCore : CoreState Params.reference :=
  { CoreState.initial Params.reference with
    status := .running
    regs := (Vector.replicate 8 0).set 1 1
    strmem := [(1, 0)] }

theorem tableCore_inv : tableCore.Inv :=
  { CoreState.Inv.initial (p := Params.reference) (by decide) with
    pcInProgram := fun _ => Nat.one_pos
    budgetKept := fun _ _ h => nomatch h
    outcomeValid := by simp [tableCore, CoreState.initial]
    strmemCanonical := List.pairwise_singleton _ _
    strmemWithin := by simp [tableCore, Memory.within, Params.reference] }

/-- The instruction `i` ends the run of `tableCore` for the given cause. -/
def EndsTableRun (i : Instr) (cause : EndCause) : Prop :=
  ∃ (c' : CoreState Params.reference) (o : RunOutcome Params.reference.W),
    exec i ⟨Params.reference, tableCore⟩ = .next ⟨Params.reference, c'⟩ ∧ c'.status = .ended ∧ c'.outcome = some o ∧
      EndsBy Params.reference i cause o

theorem endsTableRun_registerLhs {i : Instr} (hu : usesLhs (opcodeNumber i) = true) (hl : i.lhs = 8) :
    EndsTableRun i .registerLhs := by
  have hout : Params.reference.NREG ≤ (BitVec.ofNat Params.reference.W i.lhs).toNat := by rw [hl]; decide
  exact ⟨_, _, exec_lhs_outside tableCore i hu hout, rfl, rfl, .registerLhs hout⟩

theorem endsTableRun_registerRhs {i : Instr} (hf : isRegisterForm (opcodeNumber i) = true) (hl : i.lhs = 0) (hr : i.rhs = 8) :
    EndsTableRun i .registerRhs := by
  have hin : (BitVec.ofNat Params.reference.W i.lhs).toNat < Params.reference.NREG := by rw [hl]; decide
  have hout : Params.reference.NREG ≤ (BitVec.ofNat Params.reference.W i.rhs).toNat := by rw [hr]; decide
  exact ⟨_, _, exec_rhs_outside tableCore i hf (fun _ => hin) hout, rfl, rfl, .registerRhs hout fun _ => hin⟩

theorem endsTableRun_divisionByZero {i : Instr} (hop : opcodeNumber i ∈ [2, 3, 4, 5]) (hl : i.lhs = 0) (hr : i.rhs = 0) :
    EndsTableRun i .divisionByZero := by
  cases i <;> cases hl <;> cases hr
  case div | divc | mod | modc => exact ⟨_, _, rfl, rfl, rfl, .divisionByZero _⟩
  all_goals simp [opcodeNumber] at hop

theorem endsTableRun_printFault {i : Instr} (hop : opcodeNumber i ∈ [13, 14]) (hl : i.lhs = 0) (hr : i.rhs = 0) :
    EndsTableRun i .printFault := by
  cases i <;> cases hl <;> cases hr
  case print | printc => exact ⟨_, _, rfl, rfl, rfl, .printFault _⟩
  all_goals simp [opcodeNumber] at hop

theorem endsTableRun_halt {i : Instr} (hop : opcodeNumber i ∈ [17, 18]) (hl : i.lhs = 0) (hr : i.rhs = 0) :
    EndsTableRun i .halt := by
  cases i <;> cases hl <;> cases hr
  case ret | retc => exact ⟨_, _, rfl, rfl, rfl, .halt _⟩
  all_goals simp [opcodeNumber] at hop

/-- Every opcode but the halts, with the fields 0 and 1, completes and leaves the one-slot program. -/
theorem endsTableRun_programCounter {i : Instr} (hop : opcodeNumber i ∉ [17, 18]) (hl : i.lhs = 0) (hr : i.rhs = 1) :
    EndsTableRun i .programCounter := by
  cases i <;> cases hl <;> cases hr
  case ret | retc => simp [opcodeNumber] at hop
  all_goals exact ⟨_, _, rfl, rfl, rfl, .programCounter _⟩

/-- The instruction of a valid opcode and two fields of the reference width. -/
theorem exists_instr {n : Nat} (h : n ≤ 18) {l r : Nat} (hl : l < 2 ^ 32) (hr : r < 2 ^ 32) :
    ∃ i, opcodeNumber i = n ∧ i.WellFormed 32 ∧ i.lhs = l ∧ i.rhs = r := by
  rcases instrOfOpcode_cases n l r with ⟨i, _, hop, rfl, rfl, _⟩ | ⟨_, hn⟩
  · exact ⟨i, hop, ⟨hl, hr⟩, rfl, rfl⟩
  · omega

/-- The second half of O28 on the one machine: every entry of the table is an end of its run. -/
theorem table_entry_ends {n : Nat} (hn : n ≤ 18) {cause : EndCause} (hcan : canEndBy n cause = true) :
    ∃ i, opcodeNumber i = n ∧ i.WellFormed 32 ∧ EndsTableRun i cause := by
  cases cause <;> simp only [canEndBy, decide_eq_true_eq] at hcan
  case registerLhs =>
    obtain ⟨i, rfl, hw, hl, _⟩ := exists_instr hn (l := 8) (r := 0) (by decide) (by decide)
    have hle : opcodeNumber i ≤ 11 := by
      simp only [List.mem_cons, List.not_mem_nil, or_false] at hcan
      omega
    exact ⟨i, rfl, hw, endsTableRun_registerLhs (decide_eq_true hle) hl⟩
  case registerRhs =>
    obtain ⟨i, rfl, hw, hl, hr⟩ := exists_instr hn (l := 0) (r := 8) (by decide) (by decide)
    exact ⟨i, rfl, hw, endsTableRun_registerRhs (decide_eq_true hcan) hl hr⟩
  case programCounter =>
    obtain ⟨i, rfl, hw, hl, hr⟩ := exists_instr hn (l := 0) (r := 1) (by decide) (by decide)
    exact ⟨i, rfl, hw, endsTableRun_programCounter hcan hl hr⟩
  all_goals obtain ⟨i, rfl, hw, hl, hr⟩ := exists_instr hn (l := 0) (r := 0) (by decide) (by decide)
  case divisionByZero => exact ⟨i, rfl, hw, endsTableRun_divisionByZero hcan hl hr⟩
  case printFault => exact ⟨i, rfl, hw, endsTableRun_printFault hcan hl hr⟩
  case halt => exact ⟨i, rfl, hw, endsTableRun_halt hcan hl hr⟩

/-- Settles O28: the causes of an end, and for each entry of the table an end on the witness machine. -/
theorem opcodesRaiseWhatTheTableSays : Obligations.OpcodesRaiseWhatTheTableSays := by
  refine ⟨fun p c c' i o hp => ending_cause_in_table hp, fun n hn cause hcan => ?_⟩
  obtain ⟨i, hop, hw, c', o, hexec, hended, ho, hends⟩ := table_entry_ends hn hcan
  exact ⟨_, tableCore, c', i, o, hop, hw, ⟨by decide, tableCore_inv⟩, rfl, hexec, hended, ho, hends⟩

end Sys2Proof.Machine
end
